-- ==== Sys2Proof/Word.lean ====
section
/-! DEFINITION. The widths of the hardware's values (00_scope.md R4 table P1, 30_encoding.md R51). -/

namespace Sys2Proof

/-- A 4-bit field of an instruction word: a register number `x` or `y`, or the sprite height `n`. -/
abbrev Nibble := BitVec 4

/-- The width of a V register, a timer and a memory byte. -/
abbrev Byte := BitVec 8

/-- The 12-bit immediate address `nnn`. -/
abbrev Addr12 := BitVec 12

/-- The width of I, PC, a stack slot and an instruction word. -/
abbrev Word := BitVec 16

end Sys2Proof
end

