-- ==== Sys2Proof/Syntax.lean ====
section
/-! DEFINITION. The instructions: one constructor per row of spec/opcode_table.json, in the order of
30_encoding.md R56. Fields are those of R51. -/

namespace Sys2Proof

inductive Instr where
  /-- `00E0` CLS (R140) -/
  | cls
  /-- `00EE` RET (R93) -/
  | ret
  /-- `0nnn` SYS nnn (R90) -/
  | sys (nnn : Addr12)
  /-- `1nnn` JP nnn (R91) -/
  | jp (nnn : Addr12)
  /-- `2nnn` CALL nnn (R92) -/
  | call (nnn : Addr12)
  /-- `3xkk` SE Vx, kk (R94) -/
  | seVxKk (x : Nibble) (kk : Byte)
  /-- `4xkk` SNE Vx, kk (R95) -/
  | sneVxKk (x : Nibble) (kk : Byte)
  /-- `5xy0` SE Vx, Vy (R96) -/
  | seVxVy (x y : Nibble)
  /-- `6xkk` LD Vx, kk (R111) -/
  | ldVxKk (x : Nibble) (kk : Byte)
  /-- `7xkk` ADD Vx, kk (R112) -/
  | addVxKk (x : Nibble) (kk : Byte)
  /-- `8xy0` LD Vx, Vy (R113) -/
  | ldVxVy (x y : Nibble)
  /-- `8xy1` OR Vx, Vy (R114) -/
  | orVxVy (x y : Nibble)
  /-- `8xy2` AND Vx, Vy (R115) -/
  | andVxVy (x y : Nibble)
  /-- `8xy3` XOR Vx, Vy (R116) -/
  | xorVxVy (x y : Nibble)
  /-- `8xy4` ADD Vx, Vy (R117) -/
  | addVxVy (x y : Nibble)
  /-- `8xy5` SUB Vx, Vy (R118) -/
  | subVxVy (x y : Nibble)
  /-- `8xy6` SHR Vx (R119); `y` is decoded and not used -/
  | shrVx (x y : Nibble)
  /-- `8xy7` SUBN Vx, Vy (R120) -/
  | subnVxVy (x y : Nibble)
  /-- `8xyE` SHL Vx (R121); `y` is decoded and not used -/
  | shlVx (x y : Nibble)
  /-- `9xy0` SNE Vx, Vy (R97) -/
  | sneVxVy (x y : Nibble)
  /-- `Annn` LD I, nnn (R130) -/
  | ldINnn (nnn : Addr12)
  /-- `Bnnn` JP V0, nnn (R98) -/
  | jpV0Nnn (nnn : Addr12)
  /-- `Cxkk` RND Vx, kk (R122) -/
  | rndVxKk (x : Nibble) (kk : Byte)
  /-- `Dxyn` DRW Vx, Vy, n (R141) -/
  | drwVxVyN (x y n : Nibble)
  /-- `Ex9E` SKP Vx (R150) -/
  | skpVx (x : Nibble)
  /-- `ExA1` SKNP Vx (R151) -/
  | sknpVx (x : Nibble)
  /-- `Fx07` LD Vx, DT (R153) -/
  | ldVxDt (x : Nibble)
  /-- `Fx0A` LD Vx, K (R152) -/
  | ldVxK (x : Nibble)
  /-- `Fx15` LD DT, Vx (R154) -/
  | ldDtVx (x : Nibble)
  /-- `Fx18` LD ST, Vx (R155) -/
  | ldStVx (x : Nibble)
  /-- `Fx1E` ADD I, Vx (R131) -/
  | addIVx (x : Nibble)
  /-- `Fx29` LD F, Vx (R132) -/
  | ldFVx (x : Nibble)
  /-- `Fx33` LD B, Vx (R133) -/
  | ldBVx (x : Nibble)
  /-- `Fx55` LD [I], Vx (R134) -/
  | ldMemVx (x : Nibble)
  /-- `Fx65` LD Vx, [I] (R135) -/
  | ldVxMem (x : Nibble)
  deriving DecidableEq, Repr

end Sys2Proof
end

