-- ==== Sys2Proof/Decode.lean ====
section
/-! DEFINITION. Decoding (30_encoding.md R50 to R58) and, after it, encoding. -/

namespace Sys2Proof

/-! ### Fields (R51) -/

/-- `op = w[15:12]`, the opcode class. -/
def fieldOp (w : Word) : Nibble := w.extractLsb' 12 4
/-- `x = w[11:8]`. -/
def fieldX (w : Word) : Nibble := w.extractLsb' 8 4
/-- `y = w[7:4]`. -/
def fieldY (w : Word) : Nibble := w.extractLsb' 4 4
/-- `n = w[3:0]`. -/
def fieldN (w : Word) : Nibble := w.extractLsb' 0 4
/-- `kk = w[7:0]`. -/
def fieldKk (w : Word) : Byte := w.extractLsb' 0 8
/-- `nnn = w[11:0]`. -/
def fieldNnn (w : Word) : Addr12 := w.extractLsb' 0 12

/-! ### The two-level dispatch (R54, R55) -/

/-- Class 0: the whole word selects; the tests for 0x00E0 and 0x00EE come before the `0nnn` arm. -/
def decodeClass0 (w : Word) : Option Instr :=
  if w = 0x00E0#16 then some .cls
  else if w = 0x00EE#16 then some .ret
  else some (.sys (fieldNnn w))

/-- Class 8: the low nibble selects. -/
def decodeClass8 (w : Word) : Option Instr :=
  match (fieldN w).toNat with
  | 0x0 => some (.ldVxVy (fieldX w) (fieldY w))
  | 0x1 => some (.orVxVy (fieldX w) (fieldY w))
  | 0x2 => some (.andVxVy (fieldX w) (fieldY w))
  | 0x3 => some (.xorVxVy (fieldX w) (fieldY w))
  | 0x4 => some (.addVxVy (fieldX w) (fieldY w))
  | 0x5 => some (.subVxVy (fieldX w) (fieldY w))
  | 0x6 => some (.shrVx (fieldX w) (fieldY w))
  | 0x7 => some (.subnVxVy (fieldX w) (fieldY w))
  | 0xE => some (.shlVx (fieldX w) (fieldY w))
  | _ => none

/-- Class E: the low byte selects. -/
def decodeClassE (w : Word) : Option Instr :=
  if fieldKk w = 0x9E#8 then some (.skpVx (fieldX w))
  else if fieldKk w = 0xA1#8 then some (.sknpVx (fieldX w))
  else none

/-- Class F: the low byte selects. -/
def decodeClassF (w : Word) : Option Instr :=
  if fieldKk w = 0x07#8 then some (.ldVxDt (fieldX w))
  else if fieldKk w = 0x0A#8 then some (.ldVxK (fieldX w))
  else if fieldKk w = 0x15#8 then some (.ldDtVx (fieldX w))
  else if fieldKk w = 0x18#8 then some (.ldStVx (fieldX w))
  else if fieldKk w = 0x1E#8 then some (.addIVx (fieldX w))
  else if fieldKk w = 0x29#8 then some (.ldFVx (fieldX w))
  else if fieldKk w = 0x33#8 then some (.ldBVx (fieldX w))
  else if fieldKk w = 0x55#8 then some (.ldMemVx (fieldX w))
  else if fieldKk w = 0x65#8 then some (.ldVxMem (fieldX w))
  else none

/-- The decoder of a word: total; `none` is an unrecognized encoding (R57, R58). Classes 5 and 9 have a second level too
(90_conflicts.md C4, log 19). -/
def decodeWord (w : Word) : Option Instr :=
  match (fieldOp w).toNat with
  | 0x0 => decodeClass0 w
  | 0x1 => some (.jp (fieldNnn w))
  | 0x2 => some (.call (fieldNnn w))
  | 0x3 => some (.seVxKk (fieldX w) (fieldKk w))
  | 0x4 => some (.sneVxKk (fieldX w) (fieldKk w))
  | 0x5 => if fieldN w = 0x0#4 then some (.seVxVy (fieldX w) (fieldY w)) else none
  | 0x6 => some (.ldVxKk (fieldX w) (fieldKk w))
  | 0x7 => some (.addVxKk (fieldX w) (fieldKk w))
  | 0x8 => decodeClass8 w
  | 0x9 => if fieldN w = 0x0#4 then some (.sneVxVy (fieldX w) (fieldY w)) else none
  | 0xA => some (.ldINnn (fieldNnn w))
  | 0xB => some (.jpV0Nnn (fieldNnn w))
  | 0xC => some (.rndVxKk (fieldX w) (fieldKk w))
  | 0xD => some (.drwVxVyN (fieldX w) (fieldY w) (fieldN w))
  | 0xE => decodeClassE w
  | _ => decodeClassF w

/-! ### Decoding bytes -/

/-- Why a list of bytes gives no instruction. -/
inductive DecodeFailure where
  /-- fewer than the two bytes of a word -/
  | truncated
  /-- the word matches no row of R56 (R57) -/
  | unrecognized (w : Word)
  deriving DecidableEq, Repr

/-- The word of two bytes: the byte at the lower address is the high byte (20_memory.md R34). -/
def wordOfBytes (b0 b1 : Byte) : Word := b0 ++ b1

/-- The first byte (lower address) of a word. -/
def highByte (w : Word) : Byte := w.extractLsb' 8 8

/-- The second byte (higher address) of a word. -/
def lowByte (w : Word) : Byte := w.extractLsb' 0 8

/-- The instruction at the front of a list of bytes, with the bytes after it. -/
def decode : List Byte → Except DecodeFailure (Instr × List Byte)
  | b0 :: b1 :: rest =>
    match decodeWord (wordOfBytes b0 b1) with
    | some i => .ok (i, rest)
    | none => .error (.unrecognized (wordOfBytes b0 b1))
  | [] | [_] => .error .truncated

/-- An instruction word given as a number, of which only the low `nbits` bits count: its 16 bits as a word. -/
def tableWord (nbits w : Nat) : Word := BitVec.ofNat 16 (w % 2 ^ nbits)

/-- What the decoder reads from an instruction numbered as spec/opcode_table.json numbers it (one 16-bit word, bit 0 the
least significant), laid out big-endian. -/
def decodeTableWord (nbits w : Nat) : Option Instr :=
  match decode [highByte (tableWord nbits w), lowByte (tableWord nbits w)] with
  | .ok (i, _) => some i
  | .error _ => none

/-! ### Encoding (R52, R56) -/

/-- The word of an instruction, field by field from the high nibble down. -/
def encode : Instr → Word
  | .cls => 0x00E0#16
  | .ret => 0x00EE#16
  | .sys nnn => 0x0#4 ++ nnn
  | .jp nnn => 0x1#4 ++ nnn
  | .call nnn => 0x2#4 ++ nnn
  | .seVxKk x kk => 0x3#4 ++ x ++ kk
  | .sneVxKk x kk => 0x4#4 ++ x ++ kk
  | .seVxVy x y => 0x5#4 ++ x ++ y ++ 0x0#4
  | .ldVxKk x kk => 0x6#4 ++ x ++ kk
  | .addVxKk x kk => 0x7#4 ++ x ++ kk
  | .ldVxVy x y => 0x8#4 ++ x ++ y ++ 0x0#4
  | .orVxVy x y => 0x8#4 ++ x ++ y ++ 0x1#4
  | .andVxVy x y => 0x8#4 ++ x ++ y ++ 0x2#4
  | .xorVxVy x y => 0x8#4 ++ x ++ y ++ 0x3#4
  | .addVxVy x y => 0x8#4 ++ x ++ y ++ 0x4#4
  | .subVxVy x y => 0x8#4 ++ x ++ y ++ 0x5#4
  | .shrVx x y => 0x8#4 ++ x ++ y ++ 0x6#4
  | .subnVxVy x y => 0x8#4 ++ x ++ y ++ 0x7#4
  | .shlVx x y => 0x8#4 ++ x ++ y ++ 0xE#4
  | .sneVxVy x y => 0x9#4 ++ x ++ y ++ 0x0#4
  | .ldINnn nnn => 0xA#4 ++ nnn
  | .jpV0Nnn nnn => 0xB#4 ++ nnn
  | .rndVxKk x kk => 0xC#4 ++ x ++ kk
  | .drwVxVyN x y n => 0xD#4 ++ x ++ y ++ n
  | .skpVx x => 0xE#4 ++ x ++ 0x9E#8
  | .sknpVx x => 0xE#4 ++ x ++ 0xA1#8
  | .ldVxDt x => 0xF#4 ++ x ++ 0x07#8
  | .ldVxK x => 0xF#4 ++ x ++ 0x0A#8
  | .ldDtVx x => 0xF#4 ++ x ++ 0x15#8
  | .ldStVx x => 0xF#4 ++ x ++ 0x18#8
  | .addIVx x => 0xF#4 ++ x ++ 0x1E#8
  | .ldFVx x => 0xF#4 ++ x ++ 0x29#8
  | .ldBVx x => 0xF#4 ++ x ++ 0x33#8
  | .ldMemVx x => 0xF#4 ++ x ++ 0x55#8
  | .ldVxMem x => 0xF#4 ++ x ++ 0x65#8

/-- The two bytes of an instruction as Memory holds them. -/
def encodeBytes (i : Instr) : List Byte := [highByte (encode i), lowByte (encode i)]

/-! ### The opcode map (R56), a second description of the decoder -/

/-- A row of R56: a word `w` is the row's instruction when `w AND mask = match`. -/
structure OpcodeRow where
  mask : Word
  matchBits : Word
  build : Word → Instr

/-- R56's 35 rows in its order: `match` and `mask` copied from the table. -/
def opcodeMap : List OpcodeRow :=
  [ ⟨0xFFFF, 0x00E0, fun _ => .cls⟩,
    ⟨0xFFFF, 0x00EE, fun _ => .ret⟩,
    ⟨0xF000, 0x0000, fun w => .sys (fieldNnn w)⟩,
    ⟨0xF000, 0x1000, fun w => .jp (fieldNnn w)⟩,
    ⟨0xF000, 0x2000, fun w => .call (fieldNnn w)⟩,
    ⟨0xF000, 0x3000, fun w => .seVxKk (fieldX w) (fieldKk w)⟩,
    ⟨0xF000, 0x4000, fun w => .sneVxKk (fieldX w) (fieldKk w)⟩,
    ⟨0xF00F, 0x5000, fun w => .seVxVy (fieldX w) (fieldY w)⟩,
    ⟨0xF000, 0x6000, fun w => .ldVxKk (fieldX w) (fieldKk w)⟩,
    ⟨0xF000, 0x7000, fun w => .addVxKk (fieldX w) (fieldKk w)⟩,
    ⟨0xF00F, 0x8000, fun w => .ldVxVy (fieldX w) (fieldY w)⟩,
    ⟨0xF00F, 0x8001, fun w => .orVxVy (fieldX w) (fieldY w)⟩,
    ⟨0xF00F, 0x8002, fun w => .andVxVy (fieldX w) (fieldY w)⟩,
    ⟨0xF00F, 0x8003, fun w => .xorVxVy (fieldX w) (fieldY w)⟩,
    ⟨0xF00F, 0x8004, fun w => .addVxVy (fieldX w) (fieldY w)⟩,
    ⟨0xF00F, 0x8005, fun w => .subVxVy (fieldX w) (fieldY w)⟩,
    ⟨0xF00F, 0x8006, fun w => .shrVx (fieldX w) (fieldY w)⟩,
    ⟨0xF00F, 0x8007, fun w => .subnVxVy (fieldX w) (fieldY w)⟩ ] ++
  [ ⟨0xF00F, 0x800E, fun w => .shlVx (fieldX w) (fieldY w)⟩,
    ⟨0xF00F, 0x9000, fun w => .sneVxVy (fieldX w) (fieldY w)⟩,
    ⟨0xF000, 0xA000, fun w => .ldINnn (fieldNnn w)⟩,
    ⟨0xF000, 0xB000, fun w => .jpV0Nnn (fieldNnn w)⟩,
    ⟨0xF000, 0xC000, fun w => .rndVxKk (fieldX w) (fieldKk w)⟩,
    ⟨0xF000, 0xD000, fun w => .drwVxVyN (fieldX w) (fieldY w) (fieldN w)⟩,
    ⟨0xF0FF, 0xE09E, fun w => .skpVx (fieldX w)⟩,
    ⟨0xF0FF, 0xE0A1, fun w => .sknpVx (fieldX w)⟩,
    ⟨0xF0FF, 0xF007, fun w => .ldVxDt (fieldX w)⟩,
    ⟨0xF0FF, 0xF00A, fun w => .ldVxK (fieldX w)⟩,
    ⟨0xF0FF, 0xF015, fun w => .ldDtVx (fieldX w)⟩,
    ⟨0xF0FF, 0xF018, fun w => .ldStVx (fieldX w)⟩,
    ⟨0xF0FF, 0xF01E, fun w => .addIVx (fieldX w)⟩,
    ⟨0xF0FF, 0xF029, fun w => .ldFVx (fieldX w)⟩,
    ⟨0xF0FF, 0xF033, fun w => .ldBVx (fieldX w)⟩,
    ⟨0xF0FF, 0xF055, fun w => .ldMemVx (fieldX w)⟩,
    ⟨0xF0FF, 0xF065, fun w => .ldVxMem (fieldX w)⟩ ]

/-- The first row of R56 that a word matches, testing the rows in order. -/
def decodeByMap (w : Word) : Option Instr :=
  (opcodeMap.find? fun row => w &&& row.mask == row.matchBits).map fun row => row.build w

end Sys2Proof
end

