-- ==== Sys2Proof/Config.lean ====
section
/-! DEFINITION. What the source fixes (00_scope.md R4 table P1), the parameters it leaves open (table P2) with
their defaults, and the one free value, the random byte (42_arithmetic_logic.md R122). -/

namespace Sys2Proof

/-- `MEMSIZE`: addresses 0x000..0xFFF. -/
@[simp] abbrev memSize : Nat := 4096

/-- `FONT_BASE`. -/
@[simp] abbrev fontBase : Nat := 0x050

/-- `FONT_BYTES`: 16 glyphs of 5 bytes. -/
@[simp] abbrev fontBytes : Nat := 80

/-- `LOAD_BASE`: where the image lands, and the entry point. -/
@[simp] abbrev loadBase : Nat := 0x200

/-- `IMAGE_MAX` = 0xFFF - 0x200 + 1. -/
@[simp] abbrev imageMax : Nat := 3584

/-- `COL_WRAP` (44_display.md R142). -/
inductive ColWrap where
  | wrap
  | clip
  deriving DecidableEq, Repr

/-- The parameters of table P2 that are fixed for one machine. They are plain data in State (log 1), so a statement
about every state is a statement about every value of them. -/
structure Params where
  /-- `FONT`, the 80 glyph bytes (70_reset_and_hazards.md R195). -/
  font : Vector Byte 80
  /-- `COL_WRAP`. -/
  colWrap : ColWrap
  /-- `KEY_SELECT` as a finite table: an entry `(K, k)` says that key `k` is taken when the key flags are exactly `K`.
  A set of down keys without an entry, or whose entry names a key that is up, selects the lowest digit. Every function
  from non-empty sets of keys to one of their members is such a table (log 4). -/
  keySelect : List (Vector Bool 16 × Nibble)
  deriving DecidableEq, Repr

/-- The default `FONT`. PRESUMED (log 2): the spec takes the bytes from general knowledge (R195, D11). -/
def defaultFont : Vector Byte 80 :=
  #v[0xF0, 0x90, 0x90, 0x90, 0xF0,
     0x20, 0x60, 0x20, 0x20, 0x70,
     0xF0, 0x10, 0xF0, 0x80, 0xF0,
     0xF0, 0x10, 0xF0, 0x10, 0xF0,
     0x90, 0x90, 0xF0, 0x10, 0x10,
     0xF0, 0x80, 0xF0, 0x10, 0xF0,
     0xF0, 0x80, 0xF0, 0x90, 0xF0,
     0xF0, 0x10, 0x20, 0x40, 0x40,
     0xF0, 0x90, 0xF0, 0x90, 0xF0,
     0xF0, 0x90, 0xF0, 0x10, 0xF0,
     0xF0, 0x90, 0xF0, 0x90, 0x90,
     0xE0, 0x90, 0xE0, 0x90, 0xE0,
     0xF0, 0x80, 0x80, 0x80, 0xF0,
     0xE0, 0x90, 0x90, 0x90, 0xE0,
     0xF0, 0x80, 0xF0, 0x80, 0xF0,
     0xF0, 0x80, 0xF0, 0x80, 0x80]

/-- The defaults of table P2. DESIGN CHOICE (logs 2, 3, 4): the spec's own decisions D11, D3, D8. -/
def defaultParams : Params :=
  { font := defaultFont, colWrap := .wrap, keySelect := [] }

/-- The free value: `freeRandomByte k` is the byte the outside supplies to the `k`-th executed `Cxkk` (R122, R24 `rnd`).
It has no body: nothing constrains it (log 5). -/
opaque freeRandomByte : Nat → Byte

end Sys2Proof
end

