-- ==== Sys2Proof/Machine/State.lean ====
section
/-! DEFINITION. The state of the machine as plain data (10_state.md), the reasons a step or a host call can stop
(60_exceptions.md R160), and the state after an engine reset (10_state.md R23). -/

namespace Sys2Proof.Machine

/-- `RUN` (10_state.md R20). -/
inductive RunState where
  | idle
  | ready
  | running
  | paused
  deriving DecidableEq, Repr

/-- The host's control operations (60_exceptions.md R177). -/
inductive ControlOp where
  | load (bytes : List Byte)
  | run
  | pause
  | stop
  | resume
  | reset
  | step
  | execWord (w : Word)
  deriving DecidableEq, Repr

/-- The output pulses of a cycle (10_state.md R24): `render_req`, and `decode_fail` carrying the word and PC. -/
inductive Pulse where
  | renderReq
  | decodeFail (w pc : Word)
  deriving DecidableEq, Repr

/-- The faults of 60_exceptions.md R160, each with the info recorded. Every one is safe: the call fails, and the spec says
no state changes (R169, log 11). -/
inductive Fault where
  /-- Code 1. A host accessor with an index outside 0..15 (R161); no instruction raises it. Safe. -/
  | registerIndexOutOfRange (i : Nat)
  /-- Code 2. Fetch, DRW, LD B, LD [I], LD Vx,[I], `load` and the host's memory accessors, with the lowest offending
  address (R164). Safe. -/
  | memoryOutOfRange (addr : Nat)
  /-- Code 3. CALL with SP = 15; the info is SP (R162). Safe. -/
  | stackOverflow (sp : Nat)
  /-- Code 4. RET with SP = 0; the info is SP (R163). Safe. -/
  | stackUnderflow (sp : Nat)
  /-- Code 5. SKP and SKNP with V[x] > 15; the info is V[x] (R165, log 14). Safe. -/
  | keyOutOfRange (k : Byte)
  /-- Code 6. `step` and `run` in `idle` (R166). Safe. -/
  | noProgramLoaded
  /-- Code 7. A control operation outside R177's table, with RUN (R166). Safe. -/
  | invalidTransition (op : ControlOp) (run : RunState)
  deriving DecidableEq, Repr

/-- Refusals: only the one that says an instruction has no meaning in this model. -/
inductive Refusal where
  /-- Raised by `exec`'s arm of an instruction without a meaning; no arm of this model does. Safe. -/
  | notModelled (mnemonic : String)
  deriving DecidableEq, Repr

/-- `D[r][c]`: 32 rows of 64 pixels (10_state.md R16). -/
abbrev Display := Vector (Vector Bool 64) 32

/-- Memory as (address, byte) pairs in one canonical form: see `Memory.wf` in Machine/Ops.lean. -/
abbrev Memory := List Host.Cell

/-- Everything the spec gives the machine (10_state.md R10 to R21), and three fields of the model's own: `pulse`, `draws`
and `params`. -/
structure State where
  /-- `V[0]`..`V[15]`; `V[15]` is VF (R10, R11). -/
  v : Vector Byte 16
  /-- `I` (R12). -/
  iReg : Word
  /-- `PC` (R13). -/
  pc : Word
  /-- `SP` (R14). -/
  sp : Fin 16
  /-- `S[0]`..`S[15]` (R14). -/
  stack : Vector Word 16
  /-- `DT` (R15). -/
  dt : Byte
  /-- `ST` (R15). -/
  st : Byte
  /-- `D[r][c]` (R16). -/
  display : Display
  /-- `M[a]` (R17). -/
  mem : Memory
  /-- `K[0]`..`K[15]`, `true` when pressed (R18). -/
  keys : Vector Bool 16
  /-- `IMAGE` (R19). -/
  image : Option (List Byte)
  /-- `RUN` (R20). -/
  run : RunState
  /-- `pcSet`, used inside one cycle and false between cycles (R21, log 12). -/
  pcSet : Bool
  /-- Model's own: the pulse the latest cycle put out (R24, log 13). -/
  pulse : Option Pulse
  /-- Model's own: how many random bytes have been consumed (log 5). -/
  draws : Nat
  /-- Model's own: the machine's parameters, which nothing changes (log 1). -/
  params : Params
  deriving DecidableEq, Repr

/-- The state after an engine reset with the empty image (10_state.md R23, log 6). Memory lists nothing: an unlisted address
reads as the reset contents. Stack slots: log 8. Keys: log 7. -/
def State.reset : State :=
  { v := Vector.replicate 16 0
    iReg := 0
    pc := 0x200
    sp := 0
    stack := Vector.replicate 16 0
    dt := 0
    st := 0
    display := Vector.replicate 32 (Vector.replicate 64 false)
    mem := []
    keys := Vector.replicate 16 false
    image := some []
    run := .ready
    pcSet := false
    pulse := none
    draws := 0
    params := defaultParams }

end Sys2Proof.Machine
end

