-- ==== Sys2Proof/Machine/Ops.lean ====
section
/-! DEFINITION. The named operations over memory, registers, stack, PC and display, and the one way a cycle ends in a
fault. Instruction meanings are written over these. -/

namespace Sys2Proof.Machine

/-- The outcome of an instruction, a step or a host call. -/
abbrev Result := Host.Outcome State Fault Refusal

/-! ### Faults (60_exceptions.md R169, R170)

This hardware's exceptions have no handler, no vector and no saved state, and there is no return from one (R170): a fault
ends the call, is handed to the caller, and changes nothing. -/

/-- `raise <Fault>`: the cycle or call ends with the fault and keeps none of its writes (R169, log 11). -/
def raiseFault (f : Fault) : Result := .fault f

/-- What the caller of `step`, `exec_word` or a control call is left with: the state and the `fault` signal. After a fault
the state is the one before the call (R169), and nothing latches the fault (R170). -/
def afterCall (s : State) : Result → State × Option Fault
  | .next t => (t, none)
  | .fault f => (s, some f)
  | .refused _ => (s, none)

/-- The codes of R160 (log 27: the codes are the spec's own). -/
def Fault.code : Fault → Nat
  | .registerIndexOutOfRange _ => 1
  | .memoryOutOfRange _ => 2
  | .stackOverflow _ => 3
  | .stackUnderflow _ => 4
  | .keyOutOfRange _ => 5
  | .noProgramLoaded => 6
  | .invalidTransition _ _ => 7

/-! ### Memory (20_memory.md R30 to R36) -/

/-- What an address that memory does not list reads as: the reset contents of 10_state.md R23 (log 25). -/
def Memory.unlisted (font : Vector Byte 80) (a : Nat) : Byte :=
  if h : fontBase ≤ a ∧ a < fontBase + fontBytes then font[a - fontBase]'(by unfold fontBase fontBytes at *; omega) else 0

/-- The byte at an address. -/
def Memory.read (font : Vector Byte 80) : Memory → Nat → Byte
  | [], a => Memory.unlisted font a
  | (b, w) :: m, a => if a = b then w else Memory.read font m a

/-- The memory without an entry for `a`. -/
def Memory.erase (a : Nat) (m : Memory) : Memory := m.filter fun c => c.1 != a

/-- The memory with an entry put before the first higher address. -/
def Memory.insert (a : Nat) (v : Byte) : Memory → Memory
  | [] => [(a, v)]
  | (b, w) :: m => if a < b then (a, v) :: (b, w) :: m else (b, w) :: Memory.insert a v m

/-- The memory after `M[a] <- v`. Writing what an unlisted address reads as leaves no entry. -/
def Memory.write (font : Vector Byte 80) (m : Memory) (a : Nat) (v : Byte) : Memory :=
  if v = Memory.unlisted font a then Memory.erase a m else Memory.insert a v (Memory.erase a m)

/-- The canonical form: addresses strictly rising, inside the address space, and no entry equal to what an unlisted address
reads as. -/
abbrev Memory.wf (font : Vector Byte 80) (m : Memory) : Prop :=
  m.Pairwise (fun p q => p.1 < q.1) ∧ ∀ p ∈ m, p.1 < memSize ∧ p.2 ≠ Memory.unlisted font p.1

/-- `M[a]`. -/
def State.byteAt (s : State) (a : Nat) : Byte := Memory.read s.params.font s.mem a

/-- `M[a] <- v`. -/
def State.putByte (s : State) (a : Nat) (v : Byte) : State :=
  { s with mem := Memory.write s.params.font s.mem a v }

/-- `MemRead(addr, 1)` (R31). -/
def memRead (s : State) (a : Nat) : Except Fault Byte :=
  if a < memSize then .ok (s.byteAt a) else .error (.memoryOutOfRange a)

/-- `MemWrite(addr, 1, v)` (R32). -/
def memWrite (s : State) (a : Nat) (v : Byte) : Except Fault State :=
  if a < memSize then .ok (s.putByte a v) else .error (.memoryOutOfRange a)

/-- An instruction that touches the `len` bytes from `base` runs when all of them exist, and otherwise raises
MemoryOutOfRange with the lowest address that does not, before any write (60_exceptions.md R164, R169; no wrap: log 10). -/
def guardRange (base len : Nat) (body : Result) : Result :=
  if len = 0 ∨ base + len ≤ memSize then body else raiseFault (.memoryOutOfRange (max base memSize))

/-- The `len` bytes from `base`, lowest address first. -/
def State.readBytes (s : State) (base : Nat) : Nat → List Byte
  | 0 => []
  | len + 1 => s.byteAt base :: s.readBytes (base + 1) len

/-- Stores bytes from `base` upward, in order. -/
def State.writeBytes (s : State) (base : Nat) : List Byte → State
  | [] => s
  | b :: bs => (s.putByte base b).writeBytes (base + 1) bs

/-! ### Registers (10_state.md R10 to R12) -/

/-- `V[x]`. -/
def State.reg (s : State) (x : Nibble) : Byte := s.v[x.toNat]'x.isLt

/-- `V[x] <- b`. No register is hardwired (R10). -/
def State.setReg (s : State) (x : Nibble) (b : Byte) : State :=
  { s with v := s.v.set x.toNat b x.isLt }

/-- The number of VF. -/
abbrev vf : Nibble := 0xF#4

/-- Writes VF and then `V[x]`, so that with `x = 0xF` the result lands last (42_arithmetic_logic.md R110, log 17). -/
def State.setFlagged (s : State) (x : Nibble) (flag result : Byte) : State :=
  (s.setReg vf flag).setReg x result

/-- `V[0]`..`V[k-1]`, `V[0]` first. -/
def State.firstRegs (s : State) (k : Nat) : List Byte := s.v.toList.take k

/-- Writes a list of bytes into consecutive registers from number `k` upward. -/
def State.setRegsFrom (s : State) (k : Nat) : List Byte → State
  | [] => s
  | b :: bs => (s.setReg (BitVec.ofNat 4 k) b).setRegsFrom (k + 1) bs

/-- `I <- w`. -/
def State.setI (s : State) (w : Word) : State := { s with iReg := w }

/-- `DT <- b`. -/
def State.setDt (s : State) (b : Byte) : State := { s with dt := b }

/-- `ST <- b`. -/
def State.setSt (s : State) (b : Byte) : State := { s with st := b }

/-! ### PC (00_scope.md R6, 40_cycle.md R77) -/

/-- `pc <- target`: writes PC and sets `pcSet`, which suppresses the advance of this cycle. -/
def State.jump (s : State) (target : Word) : State := { s with pc := target, pcSet := true }

/-- A skip writes PC itself, taken or not (R77). -/
def State.skipIf (s : State) (taken : Bool) : State :=
  s.jump (if taken then s.pc + 4#16 else s.pc + 2#16)

/-! ### The stack (10_state.md R14) -/

/-- `S[k]`. -/
def State.slot (s : State) (k : Fin 16) : Word := s.stack[k]

/-- The pointer is incremented, then the slot is written; at 15 the increment would leave the range (60_exceptions.md
R162). `k` gets the state after the push. -/
def pushPc (s : State) (k : State → Result) : Result :=
  if h : s.sp.val < 15 then
    k { s with
        sp := ⟨s.sp.val + 1, by omega⟩
        stack := s.stack.set (s.sp.val + 1) s.pc (by omega) }
  else raiseFault (.stackOverflow s.sp.val)

/-- The slot is read, then the pointer is decremented; at 0 there is nothing to pop (60_exceptions.md R163). The slot keeps
its value (41_control_flow.md R93). `k` gets the popped value and the state after the pop. -/
def popPc (s : State) (k : Word → State → Result) : Result :=
  if 0 < s.sp.val then
    k (s.slot s.sp) { s with sp := ⟨s.sp.val - 1, by omega⟩ }
  else raiseFault (.stackUnderflow s.sp.val)

/-! ### The display (10_state.md R16, 44_display.md R141, R142) -/

/-- Every pixel off. -/
def Display.clear : Display := Vector.replicate 32 (Vector.replicate 64 false)

/-- `D[r][c]`. -/
def Display.pixel (d : Display) (r : Fin 32) (c : Fin 64) : Bool := d[r][c]

/-- `D[r][c] <- b`. -/
def Display.setPixel (d : Display) (r : Fin 32) (c : Fin 64) (b : Bool) : Display :=
  d.set r.val (d[r].set c.val b)

/-- `(row0 + r) mod 32`. -/
def targetRow (row0 : Byte) (r : Nat) : Fin 32 := Fin.ofNat 32 (row0.toNat + r)

/-- The target column under COL_WRAP, or none where `clip` drops the bit (R142). -/
def targetCol (policy : ColWrap) (col0 : Byte) (c : Nat) : Option (Fin 64) :=
  match policy with
  | .wrap => some (Fin.ofNat 64 (col0.toNat + c))
  | .clip => if h : col0.toNat + c < 64 then some ⟨col0.toNat + c, h⟩ else none

/-- XORs one sprite bit into the display; the flag becomes true when the pixel goes from 1 to 0 and never goes back to
false. -/
def drawBit (policy : ColWrap) (col0 row0 : Byte) (r c : Nat) (bit : Bool) (acc : Display × Bool) : Display × Bool :=
  match targetCol policy col0 c with
  | none => acc
  | some tc =>
    let old := acc.1.pixel (targetRow row0 r) tc
    (acc.1.setPixel (targetRow row0 r) tc (old ^^ bit), acc.2 || (old && bit))

/-- The eight bits of sprite row `r`, the most significant first. -/
def drawRow (policy : ColWrap) (col0 row0 : Byte) (r : Nat) (b : Byte) (acc : Display × Bool) : Display × Bool :=
  [0, 1, 2, 3, 4, 5, 6, 7].foldl (fun acc c => drawBit policy col0 row0 r c (b.getLsbD (7 - c)) acc) acc

/-- Sprite rows `r`, `r + 1`, … -/
def drawRows (policy : ColWrap) (col0 row0 : Byte) : Nat → List Byte → Display × Bool → Display × Bool
  | _, [], acc => acc
  | r, b :: bs, acc => drawRows policy col0 row0 (r + 1) bs (drawRow policy col0 row0 r b acc)

/-! ### The key flags (10_state.md R18, 45_keyboard_timers.md R152) -/

/-- `K[k]`. -/
def State.key (s : State) (k : Nibble) : Bool := s.keys[k.toNat]'k.isLt

/-- Every key released. -/
def allKeysUp : Vector Bool 16 := Vector.replicate 16 false

/-- The digits in ascending order. -/
def keyDigits : List Nibble := [0, 1, 2, 3, 4, 5, 6, 7, 8, 9, 10, 11, 12, 13, 14, 15]

/-- The lowest digit that is down. -/
def lowestKey (keys : Vector Bool 16) : Option Nibble :=
  keyDigits.find? fun k => keys[k.toNat]'k.isLt

/-- `KEY_SELECT`: none when no key is down, else one of the keys that are (00_scope.md R4 table P2, log 4). -/
def selectKey (params : Params) (keys : Vector Bool 16) : Option Nibble :=
  match lowestKey keys with
  | none => none
  | some low =>
    match params.keySelect.find? fun e => e.1 == keys with
    | none => some low
    | some e => if keys[e.2.toNat]'e.2.isLt then some e.2 else some low

end Sys2Proof.Machine
end

