-- ==== Sys2Proof/Machine/Operands.lean ====
section
/-! DEFINITION. The operand forms: immediates (30_encoding.md R53), register operands, the data address
(43_index_memory.md R136), the key digit (45_keyboard_timers.md R156), the font address and the decimal digits. -/

namespace Sys2Proof.Machine

/-- `zext_16(nnn)`. -/
def immAddress (nnn : Addr12) : Word := nnn.setWidth 16

/-- `zext_16(b)` of a register value. -/
def wordOfByte (b : Byte) : Word := b.setWidth 16

/-- The data address `I + k`, an unbounded natural (20_memory.md R33, log 10). -/
def dataAddress (s : State) (k : Nat) : Nat := s.iReg.toNat + k

/-- How many registers `V[0]`..`V[x]` are. -/
def regCount (x : Nibble) : Nat := x.toNat + 1

/-- `0x050 + 5 * V[x]`, with no mask on the digit (43_index_memory.md R132, log 28). -/
def fontAddress (b : Byte) : Word := BitVec.ofNat 16 (fontBase + 5 * b.toNat)

/-- The hundreds, tens and ones of a byte (43_index_memory.md R133). -/
def decimalDigits (b : Byte) : List Byte :=
  [BitVec.ofNat 8 (b.toNat / 100), BitVec.ofNat 8 (b.toNat / 10 % 10), BitVec.ofNat 8 (b.toNat % 10)]

/-- The key digit of a register: the whole byte, which must be at most 15 (45_keyboard_timers.md R156, log 14). -/
def withKeyDigit (b : Byte) (k : Nibble → Result) : Result :=
  if b.toNat ≤ 15 then k (b.setWidth 4) else raiseFault (.keyOutOfRange b)

/-- A branch's `nnn + V[0]` (41_control_flow.md R98). -/
def indexedTarget (s : State) (nnn : Addr12) : Word := immAddress nnn + wordOfByte (s.reg 0)

end Sys2Proof.Machine
end

