-- ==== Sys2Proof/Machine/Flags.lean ====
section
/-! DEFINITION. What the instructions that have VF as a flag write to it (10_state.md R11). VF is the only flag. -/

namespace Sys2Proof.Machine

/-- A flag as the byte VF gets. -/
def flagByte (b : Bool) : Byte := if b then 1 else 0

/-- `8xy4`: 1 when the 9-bit sum exceeds 255 (42_arithmetic_logic.md R117). -/
def carryFlag (a b : Byte) : Byte := flagByte (decide (a.toNat + b.toNat > 255))

/-- `8xy5`, and `8xy7` with the operands exchanged: 1 when `a >= b`, no borrow (R118, R120). -/
def noBorrowFlag (a b : Byte) : Byte := flagByte (decide (a.toNat ≥ b.toNat))

/-- `8xy6`: bit 0 before the shift (R119). -/
def shiftRightFlag (a : Byte) : Byte := flagByte (a.getLsbD 0)

/-- `8xyE`: bit 7 before the shift (R121). -/
def shiftLeftFlag (a : Byte) : Byte := flagByte (a.getLsbD 7)

/-- `Dxyn`: 1 when some pixel went from 1 to 0 (44_display.md R141). -/
def collisionFlag (hit : Bool) : Byte := flagByte hit

end Sys2Proof.Machine
end

