-- ==== Sys2Proof/Machine/Arithmetic.lean ====
section
/-! DEFINITION. Load, arithmetic, logic, shift and random (42_arithmetic_logic.md). Operands are read from the state before
any write; VF is written first and `V[x]` last (R110, log 17). -/

namespace Sys2Proof.Machine

/-- `6xkk` (R111). -/
def execLdVxKk (x : Nibble) (kk : Byte) (s : State) : Result := .next (s.setReg x kk)

/-- `7xkk` (R112): VF is not written. -/
def execAddVxKk (x : Nibble) (kk : Byte) (s : State) : Result := .next (s.setReg x (s.reg x + kk))

/-- `8xy0` (R113). -/
def execLdVxVy (x y : Nibble) (s : State) : Result := .next (s.setReg x (s.reg y))

/-- `8xy1` (R114): VF is not written. -/
def execOrVxVy (x y : Nibble) (s : State) : Result := .next (s.setReg x (s.reg x ||| s.reg y))

/-- `8xy2` (R115): VF is not written. -/
def execAndVxVy (x y : Nibble) (s : State) : Result := .next (s.setReg x (s.reg x &&& s.reg y))

/-- `8xy3` (R116): VF is not written. -/
def execXorVxVy (x y : Nibble) (s : State) : Result := .next (s.setReg x (s.reg x ^^^ s.reg y))

/-- `8xy4` (R117). -/
def execAddVxVy (x y : Nibble) (s : State) : Result :=
  .next (s.setFlagged x (carryFlag (s.reg x) (s.reg y)) (s.reg x + s.reg y))

/-- `8xy5` (R118). -/
def execSubVxVy (x y : Nibble) (s : State) : Result :=
  .next (s.setFlagged x (noBorrowFlag (s.reg x) (s.reg y)) (s.reg x - s.reg y))

/-- `8xy6` (R119): `V[y]` is neither read nor written. -/
def execShrVx (x _y : Nibble) (s : State) : Result :=
  .next (s.setFlagged x (shiftRightFlag (s.reg x)) (s.reg x >>> 1))

/-- `8xy7` (R120). -/
def execSubnVxVy (x y : Nibble) (s : State) : Result :=
  .next (s.setFlagged x (noBorrowFlag (s.reg y) (s.reg x)) (s.reg y - s.reg x))

/-- `8xyE` (R121): `V[y]` is neither read nor written. -/
def execShlVx (x _y : Nibble) (s : State) : Result :=
  .next (s.setFlagged x (shiftLeftFlag (s.reg x)) (s.reg x <<< 1))

/-- `Cxkk` with the byte `rnd` that the outside supplies (R122); the byte is used up. -/
def loadRandom (x : Nibble) (kk rnd : Byte) (s : State) : State :=
  { s.setReg x (kk &&& rnd) with draws := s.draws + 1 }

/-- `Cxkk` (R122): the byte is the free value (log 5). -/
def execRndVxKk (x : Nibble) (kk : Byte) (s : State) : Result :=
  .next (loadRandom x kk (freeRandomByte s.draws) s)

end Sys2Proof.Machine
end

