-- ==== Sys2Proof/Machine/ControlFlow.lean ====
section
/-! DEFINITION. Control flow and stack (41_control_flow.md). In every meaning PC is the address of the instruction itself
(10_state.md R13). -/

namespace Sys2Proof.Machine

/-- `0nnn` (R90): a jump, there are no system calls. -/
def execSys (nnn : Addr12) (s : State) : Result := .next (s.jump (immAddress nnn))

/-- `1nnn` (R91). -/
def execJp (nnn : Addr12) (s : State) : Result := .next (s.jump (immAddress nnn))

/-- `2nnn` (R92): the value pushed is the address of the `2nnn` (log 18). -/
def execCall (nnn : Addr12) (s : State) : Result :=
  pushPc s fun t => .next (t.jump (immAddress nnn))

/-- `00EE` (R93): the value popped is jumped to as it is (log 18). -/
def execRet (s : State) : Result :=
  popPc s fun target t => .next (t.jump target)

/-- `3xkk` (R94). -/
def execSeVxKk (x : Nibble) (kk : Byte) (s : State) : Result := .next (s.skipIf (s.reg x == kk))

/-- `4xkk` (R95). -/
def execSneVxKk (x : Nibble) (kk : Byte) (s : State) : Result := .next (s.skipIf (s.reg x != kk))

/-- `5xy0` (R96). -/
def execSeVxVy (x y : Nibble) (s : State) : Result := .next (s.skipIf (s.reg x == s.reg y))

/-- `9xy0` (R97). -/
def execSneVxVy (x y : Nibble) (s : State) : Result := .next (s.skipIf (s.reg x != s.reg y))

/-- `Bnnn` (R98): always `V[0]`, not masked to 12 bits. -/
def execJpV0Nnn (nnn : Addr12) (s : State) : Result := .next (s.jump (indexedTarget s nnn))

end Sys2Proof.Machine
end

