-- ==== Sys2Proof/Machine/DisplayOps.lean ====
section
/-! DEFINITION. The display instructions (44_display.md). -/

namespace Sys2Proof.Machine

/-- `00E0` (R140): VF is not written and no pulse is put out. -/
def execCls (s : State) : Result := .next { s with display := Display.clear }

/-- The display and the collision of a draw of the sprite of `n` bytes at I, at column `V[x]` and row `V[y]`. -/
def drawSprite (x y n : Nibble) (s : State) : Display × Bool :=
  drawRows s.params.colWrap (s.reg x) (s.reg y) 0 (s.readBytes (dataAddress s 0) n.toNat) (s.display, false)

/-- `Dxyn` (R141, R143, R145): the coordinates are those before VF is written (log 16); with `n = 0` nothing is read
(log 16). -/
def execDrwVxVyN (x y n : Nibble) (s : State) : Result :=
  guardRange (dataAddress s 0) n.toNat
    (.next { s.setReg vf (collisionFlag (drawSprite x y n s).2) with
             display := (drawSprite x y n s).1
             pulse := some .renderReq })

end Sys2Proof.Machine
end

