-- ==== Sys2Proof/Machine/IndexMemory.lean ====
section
/-! DEFINITION. The address register and memory (43_index_memory.md). None of these changes I but the three that have it as
their destination (R136, log 28); the whole address range is checked before the first write. -/

namespace Sys2Proof.Machine

/-- `Annn` (R130). -/
def execLdINnn (nnn : Addr12) (s : State) : Result := .next (s.setI (immAddress nnn))

/-- `Fx1E` (R131): 16-bit add, no flag. -/
def execAddIVx (x : Nibble) (s : State) : Result := .next (s.setI (s.iReg + wordOfByte (s.reg x)))

/-- `Fx29` (R132). -/
def execLdFVx (x : Nibble) (s : State) : Result := .next (s.setI (fontAddress (s.reg x)))

/-- `Fx33` (R133). -/
def execLdBVx (x : Nibble) (s : State) : Result :=
  guardRange (dataAddress s 0) 3 (.next (s.writeBytes (dataAddress s 0) (decimalDigits (s.reg x))))

/-- `Fx55` (R134): `V[0]` at the lowest address. -/
def execLdMemVx (x : Nibble) (s : State) : Result :=
  guardRange (dataAddress s 0) (regCount x)
    (.next (s.writeBytes (dataAddress s 0) (s.firstRegs (regCount x))))

/-- `Fx65` (R135). -/
def execLdVxMem (x : Nibble) (s : State) : Result :=
  guardRange (dataAddress s 0) (regCount x)
    (.next (s.setRegsFrom 0 (s.readBytes (dataAddress s 0) (regCount x))))

end Sys2Proof.Machine
end

