-- ==== Sys2Proof/Machine/KeysTimers.lean ====
section
/-! DEFINITION. Keyboard and timers (45_keyboard_timers.md). -/

namespace Sys2Proof.Machine

/-- `Ex9E` (R150). -/
def execSkpVx (x : Nibble) (s : State) : Result :=
  withKeyDigit (s.reg x) fun k => .next (s.skipIf (s.key k))

/-- `ExA1` (R151). -/
def execSknpVx (x : Nibble) (s : State) : Result :=
  withKeyDigit (s.reg x) fun k => .next (s.skipIf (!s.key k))

/-- `Fx0A` (R152): with no key down PC is set to itself, so the same word is fetched next; else the selected key (log 4) is
loaded and every flag is cleared (log 15). -/
def execLdVxK (x : Nibble) (s : State) : Result :=
  match selectKey s.params s.keys with
  | none => .next (s.jump s.pc)
  | some k => .next { s.setReg x (k.setWidth 8) with keys := allKeysUp }

/-- `Fx07` (R153): DT before this cycle's tick. -/
def execLdVxDt (x : Nibble) (s : State) : Result := .next (s.setReg x s.dt)

/-- `Fx15` (R154). -/
def execLdDtVx (x : Nibble) (s : State) : Result := .next (s.setDt (s.reg x))

/-- `Fx18` (R155). -/
def execLdStVx (x : Nibble) (s : State) : Result := .next (s.setSt (s.reg x))

end Sys2Proof.Machine
end

