-- ==== Sys2Proof/Machine/Cycle.lean ====
section
/-! DEFINITION. What surrounds the execute phase (40_cycle.md): fetch, the unrecognized no-op, the PC advance and the tick;
and the debug entry `exec_word`. -/

namespace Sys2Proof.Machine

/-- Fetch (R71): the bytes at PC and PC + 1, the first one high. It changes nothing. -/
def fetch (s : State) : Except Fault Word :=
  match memRead s s.pc.toNat with
  | .error f => .error f
  | .ok b0 =>
    match memRead s (s.pc.toNat + 1) with
    | .error f => .error f
    | .ok b1 => .ok (wordOfBytes b0 b1)

/-- The start of a cycle: `pcSet` is cleared (R70) and no pulse is out. -/
def beginCycle (s : State) : State := { s with pcSet := false, pulse := none }

/-- The default advance (R73). -/
def advance (s : State) : State := { s with pc := if s.pcSet then s.pc else s.pc + 2#16 }

/-- A timer's decrement, clamped at 0 (R74). -/
def tickTimer (b : Byte) : Byte := if b = 0 then 0 else b - 1

/-- The tick of both timers (R74). -/
def tick (s : State) : State := { s with dt := tickTimer s.dt, st := tickTimer s.st }

/-- The end of a completed cycle: advance, then tick; `pcSet` carries nothing to the next cycle (10_state.md R21, log 12). -/
def endCycle (s : State) : State := { tick (advance s) with pcSet := false }

/-- The execute phase of an unrecognized word (R75): a `decode_fail` pulse and nothing else. -/
def unrecognized (w : Word) (s : State) : Result := .next { s with pulse := some (.decodeFail w s.pc) }

/-- `Execute(w)` (R72): the one rule that the word selects. -/
def executePhase (w : Word) (s : State) : Result :=
  match decodeWord w with
  | some i => Sys2Proof.Machine.exec i s
  | none => unrecognized w s

/-- A cycle after its fetch, which is also the debug entry `ExecuteWord(w)` (R78, log 23): it asks nothing of RUN and reads
no memory at PC. -/
def executeWord (w : Word) (s : State) : Result :=
  match executePhase w (beginCycle s) with
  | .next t => .next (endCycle t)
  | .fault f => .fault f
  | .refused r => .refused r

/-- A cycle that starts with a fetch. -/
def fetchedCycle (s : State) : Result :=
  match fetch s with
  | .error f => raiseFault f
  | .ok w => executeWord w s

/-- `StepCycle` (R70): no cycle runs in `idle` (60_exceptions.md R166), which is tested first (R168). -/
def stepCycle (s : State) : Result :=
  if s.run = .idle then raiseFault .noProgramLoaded else fetchedCycle s

/-- The state whose next fetch gives the word `w`: the word stands big-endian at PC. A PC that no fetch can be made at is
moved to the entry point, and `idle` becomes `ready` (log 24). -/
def placeWord (s : State) (w : Word) : State :=
  let s1 := if s.run = .idle then { s with run := .ready } else s
  let s2 := if s1.pc.toNat + 2 ≤ memSize then s1 else { s1 with pc := BitVec.ofNat 16 loadBase }
  s2.writeBytes s2.pc.toNat [highByte w, lowByte w]

end Sys2Proof.Machine
end

