-- ==== Sys2Proof/Machine/Step.lean ====
section
/-! DEFINITION. One step of the machine is one `StepCycle` (40_cycle.md R70). -/

namespace Sys2Proof.Machine

/-- One cycle. -/
def step (s : State) : Host.Outcome State Fault Refusal := stepCycle s

/-- `s` with the instruction `w` (numbered as spec/opcode_table.json numbers it) where the next step fetches it. -/
def State.withFetchWord (s : State) (nbits w : Nat) : State := placeWord s (tableWord nbits w)

end Sys2Proof.Machine
end

