-- ==== Sys2Proof/Machine/RunControl.lean ====
section
/-! DEFINITION. What the host may do between cycles (60_exceptions.md R177, R178): reset and load (70_reset_and_hazards.md
R190 to R193), the run control, the key flags, and the bounds-checked accessors (10_state.md R25). -/

namespace Sys2Proof.Machine

/-- `ContainerReset` (R190). Memory that lists nothing holds zeros and FONT. The key flags, IMAGE and RUN are not touched,
nor is what belongs to the outside (`draws`, `params`). -/
def containerReset (s : State) : State :=
  { s with
    v := Vector.replicate 16 0
    iReg := 0
    pc := 0
    sp := 0
    stack := Vector.replicate 16 0
    dt := 0
    st := 0
    display := Display.clear
    mem := []
    pcSet := false
    pulse := none }

/-- `EngineReset` with the image given (R191). -/
def engineReset (img : List Byte) (s : State) : State :=
  { (containerReset s).writeBytes loadBase img with pc := BitVec.ofNat 16 loadBase, run := .ready }

/-- `loadProgram(bytes)` (R192): an oversized image is rejected whole (log 22). -/
def loadProgram (bytes : List Byte) (s : State) : Result :=
  if bytes.length ≤ imageMax then .next (engineReset bytes { s with image := some bytes })
  else raiseFault (.memoryOutOfRange memSize)

/-- The state at power-on (R193, log 9): container-reset values, RUN `idle`, no image. -/
def powerOn : State :=
  { containerReset State.reset with image := none, run := .idle }

/-- A change of RUN that R177's table allows from one run state only. -/
def moveRun (op : ControlOp) (source target : RunState) (s : State) : Result :=
  if s.run = source then .next { s with run := target } else raiseFault (.invalidTransition op s.run)

/-- The control operations: R177's table row by row, every other pair an InvalidTransition (log 22). `stop` is `pause`. -/
def hostControl (op : ControlOp) (s : State) : Result :=
  match op with
  | .load bytes => loadProgram bytes s
  | .run => if s.run = .idle then raiseFault .noProgramLoaded else moveRun .run .ready .running s
  | .pause => moveRun .pause .running .paused s
  | .stop => moveRun .stop .running .paused s
  | .resume => moveRun .resume .paused .running s
  | .reset => .next (if s.run = .idle then containerReset s else engineReset (s.image.getD []) s)
  | .step => Sys2Proof.Machine.step s
  | .execWord w => executeWord w s

/-- `getRegister(i)` (10_state.md R25). -/
def getRegister (s : State) (i : Nat) : Except Fault Byte :=
  if h : i < 16 then .ok s.v[i] else .error (.registerIndexOutOfRange i)

/-- `setRegister(i, v)`: the stored value is `v mod 256`. -/
def setRegister (s : State) (i v : Nat) : Except Fault State :=
  if h : i < 16 then .ok { s with v := s.v.set i (BitVec.ofNat 8 v) } else .error (.registerIndexOutOfRange i)

/-- `getStack(i)`. -/
def getStack (s : State) (i : Nat) : Except Fault Word :=
  if h : i < 16 then .ok s.stack[i] else .error (.registerIndexOutOfRange i)

/-- `setStack(i, v)`: the value is truncated to 16 bits. -/
def setStack (s : State) (i v : Nat) : Except Fault State :=
  if h : i < 16 then .ok { s with stack := s.stack.set i (BitVec.ofNat 16 v) } else .error (.registerIndexOutOfRange i)

/-- The host's memory read. -/
def readMemory (s : State) (a : Nat) : Except Fault Byte := memRead s a

/-- The host's memory write. -/
def writeMemory (s : State) (a : Nat) (b : Byte) : Except Fault State := memWrite s a b

/-- The host sets or clears one key flag (R178). -/
def setKey (s : State) (k : Nibble) (down : Bool) : State :=
  { s with keys := s.keys.set k.toNat down k.isLt }

/-- The host's moves that can change the state (R178). -/
inductive HostMove where
  | control (op : ControlOp)
  | setKey (k : Nibble) (down : Bool)
  | setRegister (i v : Nat)
  | setStack (i v : Nat)
  | writeMemory (a : Nat) (b : Byte)
  deriving DecidableEq, Repr

/-- A checked write as the outcome of a host call. -/
def ofExcept : Except Fault State → Result
  | .ok t => .next t
  | .error f => raiseFault f

/-- One move of the host, between cycles. -/
def hostMove (m : HostMove) (s : State) : Result :=
  match m with
  | .control op => hostControl op s
  | .setKey k down => .next (setKey s k down)
  | .setRegister i v => ofExcept (setRegister s i v)
  | .setStack i v => ofExcept (setStack s i v)
  | .writeMemory a b => ofExcept (writeMemory s a b)

/-- A sequence of host moves (`step` among them) as the driver makes them: a call that fails leaves the state alone and the
driver goes on (R169, R170). -/
def drive : List HostMove → State → State
  | [], s => s
  | m :: ms, s => drive ms (afterCall s (hostMove m s)).1

end Sys2Proof.Machine
end

