-- ==== Sys2Proof/Safety.lean ====
section
/-! DEFINITION. The terms that statements about the machine use: which pieces of state a change is confined to, the
invariants, what a draw toggles, and runs that do not fault. -/

namespace Sys2Proof.Machine

/-! ### Frames -/

/-- A piece of state that an instruction may write. IMAGE, RUN and the parameters are none: no instruction writes them. -/
inductive Piece where
  | v (x : Nibble)
  | i
  /-- PC, and the transient `pcSet` that goes with a write of it -/
  | pc
  | sp
  | slot (k : Fin 16)
  | dt
  | st
  | pixels
  /-- the `len` bytes of memory from `base` -/
  | bytes (base len : Nat)
  | keys
  | draws
  | pulse
  deriving DecidableEq, Repr

/-- Every piece of state outside `ch` is the same in `t` as in `s`; memory is compared byte by byte, as it reads. -/
structure Unchanged (ch : List Piece) (s t : State) : Prop where
  v : ∀ x, Piece.v x ∉ ch → t.reg x = s.reg x
  i : Piece.i ∉ ch → t.iReg = s.iReg
  pc : Piece.pc ∉ ch → t.pc = s.pc ∧ t.pcSet = s.pcSet
  sp : Piece.sp ∉ ch → t.sp = s.sp
  slot : ∀ k, Piece.slot k ∉ ch → t.slot k = s.slot k
  dt : Piece.dt ∉ ch → t.dt = s.dt
  st : Piece.st ∉ ch → t.st = s.st
  pixels : Piece.pixels ∉ ch → ∀ r c, t.display.pixel r c = s.display.pixel r c
  bytes : ∀ a, (∀ base len, Piece.bytes base len ∈ ch → a < base ∨ base + len ≤ a) → t.byteAt a = s.byteAt a
  keys : Piece.keys ∉ ch → ∀ k, t.key k = s.key k
  draws : Piece.draws ∉ ch → t.draws = s.draws
  pulse : Piece.pulse ∉ ch → t.pulse = s.pulse
  image : t.image = s.image
  run : t.run = s.run
  params : t.params = s.params

/-- `V[0]`..`V[x]` as pieces. -/
def regsUpTo (x : Nibble) : List Piece := (List.range (regCount x)).map fun k => .v (BitVec.ofNat 4 k)

/-- Every word that matches the row decodes to the instruction with that word's fields (30_encoding.md R56). -/
def Recognized (mask matchBits : Word) (build : Word → Instr) : Prop :=
  ∀ w : Word, w &&& mask = matchBits → decodeWord w = some (build w)

/-! ### Invariants -/

/-- Memory is in canonical form. -/
def State.MemoryCanonical (s : State) : Prop := Memory.wf s.params.font s.mem

/-- What holds between any two moves of the host: canonical memory, an image no longer than memory has room for, an image
whenever a program is loaded (10_state.md R19, R20), and no `pcSet` left over (R21). -/
structure State.BetweenCycles (s : State) : Prop where
  memory : s.MemoryCanonical
  imageFits : ∀ img, s.image = some img → img.length ≤ imageMax
  loaded : s.run ≠ .idle → s.image ≠ none
  noPcSet : s.pcSet = false

/-- PC never exceeds 0x10FE (70_reset_and_hazards.md R203); a slot holds the address of a CALL, which was fetched. -/
structure State.PcBounded (s : State) : Prop where
  pc : s.pc.toNat ≤ 0x10FE
  slots : ∀ k, (s.slot k).toNat ≤ 0xFFE

/-! ### Draws (44_display.md R141, R142) -/

/-- Column offset `c` of a sprite at column `col0` lands on column `tc`. -/
def LandsOnColumn (policy : ColWrap) (col0 : Byte) (c : Nat) (tc : Fin 64) : Prop :=
  match policy with
  | .wrap => (col0.toNat + c) % 64 = tc.val
  | .clip => col0.toNat + c = tc.val

/-- `DRW Vx, Vy, n` at `s` has a 1 bit for the pixel at row `r` and column `c`. -/
def SpriteCovers (s : State) (x y n : Nibble) (r : Fin 32) (c : Fin 64) : Prop :=
  ∃ dr dc : Nat, dr < n.toNat ∧ dc < 8 ∧ ((s.reg y).toNat + dr) % 32 = r.val ∧
    LandsOnColumn s.params.colWrap (s.reg x) dc c ∧ (s.byteAt (s.iReg.toNat + dr)).getLsbD (7 - dc) = true

/-! ### Stores (43_index_memory.md R133, R134) -/

/-- The byte at `a` once `Fx55` at `s` has stored `V[0]`..`V[x]` from I upward. -/
def byteAfterRegs (s : State) (x : Nibble) (a : Nat) : Byte :=
  if s.iReg.toNat ≤ a ∧ a ≤ s.iReg.toNat + x.toNat then s.reg (BitVec.ofNat 4 (a - s.iReg.toNat)) else s.byteAt a

/-- The byte at `a` once `Fx33` at `s` has stored the digits of `V[x]` at I, I + 1 and I + 2. -/
def byteAfterDigits (s : State) (x : Nibble) (a : Nat) : Byte :=
  if a = s.iReg.toNat then BitVec.ofNat 8 ((s.reg x).toNat / 100)
  else if a = s.iReg.toNat + 1 then BitVec.ofNat 8 ((s.reg x).toNat / 10 % 10)
  else if a = s.iReg.toNat + 2 then BitVec.ofNat 8 ((s.reg x).toNat % 10)
  else s.byteAt a

/-! ### Runs -/

/-- `k` cycles from `s` complete, one after the other, and end in `t`. -/
def RunsTo (k : Nat) (s t : State) : Prop := Host.Core.run Sys2Proof.core k s = .next t

/-- A safe run: `k` cycles from `s` complete without a fault. -/
def SafeFor (k : Nat) (s : State) : Prop := ∃ t, RunsTo k s t

end Sys2Proof.Machine
end

