-- ==== Sys2Proof/Certificates/Slice0/Obligations.lean ====
section
/-! DEFINITION. The statements for the provers. Each docstring names the rules of spec/ it formalises; a statement that
rests on a decision of the spec's own or of the model's names the log entry. -/

open Sys2Proof Sys2Proof.Machine

/-! ### Encoding -/

/-- For every instruction, decoding its bytes gives it back with every operand, and leaves the bytes after it
(30_encoding.md sections 1 to 4). -/
def Obligations.DecodeInvertsEncode : Prop :=
  ∀ (i : Instr) (rest : List Byte), i.wellFormed = true → decode (encodeBytes i ++ rest) = .ok (i, rest)

/-- Every word that decodes is the encoding of the instruction it decodes to, which is well formed: no word has two
meanings and no bit of a word is dropped. -/
def Obligations.EncodeInvertsDecode : Prop :=
  ∀ (w : Word) (i : Instr), decodeWord w = some i → i.wellFormed = true ∧ encode i = w

/-- The two-level dispatch (R54, R55) and the mask and match table tried in order (R56) are the same decoder. -/
def Obligations.DispatchAgreesWithOpcodeMap : Prop :=
  opcodeMap.length = 35 ∧ ∀ w : Word, decodeWord w = decodeByMap w

/-- Exactly the words of R57's classes are unrecognized: 5xyN and 9xyN with N ≠ 0, 8xyN with N in 8..D and F, Exkk and Fxkk
with another low byte than those listed. -/
def Obligations.UnrecognizedWordsAreThese : Prop :=
  ∀ w : Word, decodeWord w = none ↔
    (w.toNat / 4096 = 0x5 ∧ w.toNat % 16 ≠ 0) ∨
    (w.toNat / 4096 = 0x9 ∧ w.toNat % 16 ≠ 0) ∨
    (w.toNat / 4096 = 0x8 ∧ w.toNat % 16 ∈ [0x8, 0x9, 0xA, 0xB, 0xC, 0xD, 0xF]) ∨
    (w.toNat / 4096 = 0xE ∧ w.toNat % 256 ∉ [0x9E, 0xA1]) ∨
    (w.toNat / 4096 = 0xF ∧ w.toNat % 256 ∉ [0x07, 0x0A, 0x15, 0x18, 0x1E, 0x29, 0x33, 0x55, 0x65])

/-- A few words written out from the patterns of R56, one family after the other. That 0x01E0 is `0nnn` and not a clear is the
spec's own decision D13 (log 19). -/
def Obligations.SampleWordsDecode : Prop :=
  decodeWord 0b0000000011100000#16 = some .cls ∧
  decodeWord 0b0000000011101110#16 = some .ret ∧
  decodeWord 0b0000000111100000#16 = some (.sys 0x1E0#12) ∧
  decodeWord 0b0010001000000110#16 = some (.call 0x206#12) ∧
  decodeWord 0b0011001100101010#16 = some (.seVxKk 3#4 0x2A#8) ∧
  decodeWord 0b1000000100100101#16 = some (.subVxVy 1#4 2#4) ∧
  decodeWord 0b1010001101000101#16 = some (.ldINnn 0x345#12) ∧
  decodeWord 0b1101000000010010#16 = some (.drwVxVyN 0#4 1#4 2#4) ∧
  decodeWord 0b1110001010011110#16 = some (.skpVx 2#4) ∧
  decodeWord 0b1111001000110011#16 = some (.ldBVx 2#4) ∧
  decodeWord 0b1000000100101000#16 = none

/-! ### The cycle -/

/-- One step is one cycle: refused in `idle` before anything else; then the fetch of two bytes, high byte first, which faults
above 0xFFE; then the decoded instruction's execute phase with `pcSet` clear; then PC + 2 unless the instruction set PC; then
both timers one lower unless 0. A fault of the instruction is the fault of the step. (R70, R71, R73, R74; that no pulse is
out when a cycle begins and that `pcSet` is cleared at its end too are the model's, logs 12 and 13.) -/
def Obligations.StepRunsDecodedInstruction : Prop :=
  (∀ s : State, s.run = .idle → step s = .fault .noProgramLoaded) ∧
  (∀ s : State, s.run ≠ .idle → 4095 < s.pc.toNat → step s = .fault (.memoryOutOfRange s.pc.toNat)) ∧
  (∀ s : State, s.run ≠ .idle → s.pc.toNat = 4095 → step s = .fault (.memoryOutOfRange 4096)) ∧
  ∀ (s : State) (i : Instr), s.run ≠ .idle → s.pc.toNat ≤ 0xFFE →
    decode [s.byteAt s.pc.toNat, s.byteAt (s.pc.toNat + 1)] = .ok (i, []) →
    step s =
      match Sys2Proof.Machine.exec i { s with pcSet := false, pulse := none } with
      | .next t =>
        .next { t with
                pc := if t.pcSet then t.pc else t.pc + 2#16
                dt := if t.dt = 0 then 0 else t.dt - 1
                st := if t.st = 0 then 0 else t.st - 1
                pcSet := false }
      | .fault f => .fault f
      | .refused r => .refused r

/-- An unrecognized word is a no-op: PC advances by 2, the timers tick, `decode_fail` is pulsed with the word and PC, and
nothing else changes (R75; the pulse as a field is the model's, log 13). -/
def Obligations.UnrecognizedWordIsNoOp : Prop :=
  ∀ (s : State) (w : Word), s.run ≠ .idle → s.pc.toNat ≤ 0xFFE →
    w = s.byteAt s.pc.toNat ++ s.byteAt (s.pc.toNat + 1) → decodeWord w = none →
    ∃ t, step s = .next t ∧ t.pc = s.pc + 2#16 ∧ t.dt.toNat = s.dt.toNat - 1 ∧ t.st.toNat = s.st.toNat - 1 ∧
      t.pulse = some (.decodeFail w s.pc) ∧ t.pcSet = false ∧
      Unchanged [.pc, .dt, .st, .pulse] s t

/-- The debug entry is a cycle whose fetch is replaced by the given word, in every run state and at every PC: the execute phase
of what the word decodes to (or the unrecognized no-op) with `pcSet` and the pulse clear, then the advance, modulo 65536, and
the tick. Where a fetch gives `w`, `step` and `exec_word(w)` are the same. (40_cycle.md, debug entry; that it is a whole cycle
and asks nothing of RUN is the spec's own decision D17, log 23.) -/
def Obligations.ExecWordIsStepWithoutFetch : Prop :=
  (∀ (s : State) (w : Word), hostControl (.execWord w) s =
    match (match decodeWord w with
      | some i => Sys2Proof.Machine.exec i { s with pcSet := false, pulse := none }
      | none => .next { s with pcSet := false, pulse := some (.decodeFail w s.pc) }) with
    | .next t =>
      .next { t with
              pc := if t.pcSet then t.pc else t.pc + 2#16
              dt := if t.dt = 0 then 0 else t.dt - 1
              st := if t.st = 0 then 0 else t.st - 1
              pcSet := false }
    | .fault f => .fault f
    | .refused r => .refused r) ∧
  (∀ (s : State) (w : Word), s.run ≠ .idle → fetch s = .ok w → hostControl (.execWord w) s = step s) ∧
  (∀ (s : State) (x : Nibble) (kk : Byte), ∃ t, hostControl (.execWord (encode (.ldVxKk x kk))) s = .next t ∧
    t.reg x = kk ∧ t.pc.toNat = (s.pc.toNat + 2) % 65536 ∧ t.run = s.run ∧ ∀ a, t.byteAt a = s.byteAt a)

/-- PC after a completed cycle, for every word (40_cycle.md, the table of which instructions set `pcSet`; that `00EE`
goes to the popped slot with no advance is the spec's own decision D28, log 18; that a skip not taken counts as setting PC is
D31, log 29, and is not observable here). -/
def Obligations.PcAfterEveryCycle : Prop :=
  ∀ (s t : State) (w : Word), fetch s = .ok w → step s = .next t →
    t.pc.toNat =
      match decodeWord w with
      | some (.sys nnn) | some (.jp nnn) | some (.call nnn) => nnn.toNat
      | some .ret => (s.slot s.sp).toNat
      | some (.jpV0Nnn nnn) => (nnn.toNat + (s.reg 0).toNat) % 65536
      | some (.seVxKk x kk) => s.pc.toNat + if s.reg x = kk then 4 else 2
      | some (.sneVxKk x kk) => s.pc.toNat + if s.reg x = kk then 2 else 4
      | some (.seVxVy x y) => s.pc.toNat + if s.reg x = s.reg y then 4 else 2
      | some (.sneVxVy x y) => s.pc.toNat + if s.reg x = s.reg y then 2 else 4
      | some (.skpVx x) => s.pc.toNat + if s.key ((s.reg x).setWidth 4) then 4 else 2
      | some (.sknpVx x) => s.pc.toNat + if s.key ((s.reg x).setWidth 4) then 2 else 4
      | some (.ldVxK _) => s.pc.toNat + if ∀ k, s.key k = false then 0 else 2
      | _ => s.pc.toNat + 2

/-- Both timers tick in every completed cycle, whatever the word, and a timer at 0 stays 0; only `Fx15` and `Fx18` change
what is ticked, and `Fx07` reads the value before the tick (R74). -/
def Obligations.TimersTickEveryCycle : Prop :=
  ∀ (s t : State) (w : Word), fetch s = .ok w → step s = .next t →
    t.dt.toNat = (match decodeWord w with | some (.ldDtVx x) => (s.reg x).toNat | _ => s.dt.toNat) - 1 ∧
    t.st.toNat = (match decodeWord w with | some (.ldStVx x) => (s.reg x).toNat | _ => s.st.toNat) - 1 ∧
    ∀ x, decodeWord w = some (.ldVxDt x) → t.reg x = s.dt

/-! ### Control flow -/

/-- `0nnn` and `1nnn` (R90, R91): the encodings, and PC becomes nnn with nothing else changed; there are no system calls. A
target above 0xFFE faults at the next cycle's fetch. That every class-0 word but those two is `0nnn` is the spec's own decision
D13 (log 19). -/
def Obligations.SysAndJpJump : Prop :=
  (∀ w : Word, w &&& 0xF000 = 0x0000 → w ≠ 0x00E0 → w ≠ 0x00EE → decodeWord w = some (.sys (fieldNnn w))) ∧
  Recognized 0xF000 0x1000 (fun w => .jp (fieldNnn w)) ∧
  ∀ (nnn : Addr12) (s : State), ∀ i ∈ [Instr.sys nnn, Instr.jp nnn],
    ∃ t, Sys2Proof.Machine.exec i s = .next t ∧ t.pc.toNat = nnn.toNat ∧ t.pcSet = true ∧ Unchanged [.pc] s t ∧
      (s.run ≠ .idle → 0xFFE < nnn.toNat → step t = .fault (.memoryOutOfRange 4096))

/-- `2nnn`: SP goes up by 1, the slot it then names gets the address of the `2nnn` itself, PC becomes nnn, and nothing else
changes; with SP = 15 it raises StackOverflow (R92; that the value pushed is the address of the `2nnn` is the spec's own decision
D28, log 18). -/
def Obligations.CallPushesItsOwnAddress : Prop :=
  Recognized 0xF000 0x2000 (fun w => .call (fieldNnn w)) ∧
  ∀ (nnn : Addr12) (s : State),
    (s.sp.val < 15 → ∃ t, Sys2Proof.Machine.exec (.call nnn) s = .next t ∧ t.sp.val = s.sp.val + 1 ∧
      t.slot t.sp = s.pc ∧ t.pc.toNat = nnn.toNat ∧ t.pcSet = true ∧ Unchanged [.sp, .slot t.sp, .pc] s t) ∧
    (s.sp.val = 15 → Sys2Proof.Machine.exec (.call nnn) s = .fault (.stackOverflow 15))

/-- `00EE`: PC becomes the slot that SP names, SP goes down by 1, the slots keep their values and nothing else changes; with
SP = 0 it raises StackUnderflow (R93; that the popped value is jumped to as it is, with no advance, is the spec's own decision
D28, log 18). -/
def Obligations.RetPopsIntoPc : Prop :=
  decodeWord 0x00EE = some .ret ∧
  ∀ s : State,
    (0 < s.sp.val → ∃ t, Sys2Proof.Machine.exec .ret s = .next t ∧ t.pc = s.slot s.sp ∧ t.pcSet = true ∧
      t.sp.val + 1 = s.sp.val ∧ Unchanged [.sp, .pc] s t) ∧
    (s.sp.val = 0 → Sys2Proof.Machine.exec .ret s = .fault (.stackUnderflow 0))

/-- Call and return: if a `2nnn` runs at `a` with SP = s, and later a `00EE` runs with SP = s + 1 and the slot unchanged, then
PC is `a` again, the address of the call itself, and SP is s (41_control_flow.md, call and return pair; the return-address
convention is the spec's own decision D28, log 18). -/
def Obligations.ReturnLandsOnTheCall : Prop :=
  ∀ (nnn : Addr12) (s t u w : State), Sys2Proof.Machine.exec (.call nnn) s = .next t → u.sp = t.sp →
    u.slot u.sp = t.slot t.sp → Sys2Proof.Machine.exec .ret u = .next w → w.pc = s.pc ∧ w.sp = s.sp

/-- `3xkk` and `4xkk` (R94, R95): the encodings, PC + 4 when the condition holds and PC + 2 when not, and nothing else
changes (that a skip not taken sets `pcSet` too is the spec's own decision D31, log 29). -/
def Obligations.ImmediateSkips : Prop :=
  Recognized 0xF000 0x3000 (fun w => .seVxKk (fieldX w) (fieldKk w)) ∧
  Recognized 0xF000 0x4000 (fun w => .sneVxKk (fieldX w) (fieldKk w)) ∧
  ∀ (x : Nibble) (kk : Byte) (s : State),
    (∃ t, Sys2Proof.Machine.exec (.seVxKk x kk) s = .next t ∧ t.pcSet = true ∧ Unchanged [.pc] s t ∧
      t.pc.toNat = (s.pc.toNat + if (s.reg x).toNat = kk.toNat then 4 else 2) % 65536) ∧
    (∃ t, Sys2Proof.Machine.exec (.sneVxKk x kk) s = .next t ∧ t.pcSet = true ∧ Unchanged [.pc] s t ∧
      t.pc.toNat = (s.pc.toNat + if (s.reg x).toNat ≠ kk.toNat then 4 else 2) % 65536)

/-- `5xy0` and `9xy0` (R96, R97), `x = y` included. That the other words of the two classes do not decode is the spec's own
decision D13 (log 19), that a skip not taken sets `pcSet` too D31 (log 29). -/
def Obligations.RegisterSkips : Prop :=
  Recognized 0xF00F 0x5000 (fun w => .seVxVy (fieldX w) (fieldY w)) ∧
  Recognized 0xF00F 0x9000 (fun w => .sneVxVy (fieldX w) (fieldY w)) ∧
  (∀ w : Word, w &&& 0xF000 = 0x5000 ∨ w &&& 0xF000 = 0x9000 → w &&& 0x000F ≠ 0 → decodeWord w = none) ∧
  ∀ (x y : Nibble) (s : State),
    (∃ t, Sys2Proof.Machine.exec (.seVxVy x y) s = .next t ∧ t.pcSet = true ∧ Unchanged [.pc] s t ∧
      t.pc.toNat = (s.pc.toNat + if (s.reg x).toNat = (s.reg y).toNat then 4 else 2) % 65536) ∧
    (∃ t, Sys2Proof.Machine.exec (.sneVxVy x y) s = .next t ∧ t.pcSet = true ∧ Unchanged [.pc] s t ∧
      t.pc.toNat = (s.pc.toNat + if (s.reg x).toNat ≠ (s.reg y).toNat then 4 else 2) % 65536)

/-- `Bnnn` (R98): PC becomes nnn + V[0], not masked to 12 bits and at most 0x10FE; the next cycle of a sum above 0xFFE
faults. -/
def Obligations.IndexedJump : Prop :=
  Recognized 0xF000 0xB000 (fun w => .jpV0Nnn (fieldNnn w)) ∧
  ∀ (nnn : Addr12) (s : State), ∃ t, Sys2Proof.Machine.exec (.jpV0Nnn nnn) s = .next t ∧
    t.pc.toNat = nnn.toNat + (s.reg 0).toNat ∧ t.pc.toNat ≤ 0x10FE ∧ t.pcSet = true ∧ Unchanged [.pc] s t ∧
    (s.run ≠ .idle → 0xFFE < t.pc.toNat →
      step t = .fault (.memoryOutOfRange (max t.pc.toNat 4096)))

/-- A jump to its own address idles: after any number of cycles everything is as it was but the timers, which have counted
down towards 0 (R91, R179). -/
def Obligations.SelfJumpCountsTimersDown : Prop :=
  ∀ (n : Nat) (s : State), s.run ≠ .idle → s.pcSet = false → s.pulse = none → s.pc.toNat ≤ 0xFFE →
    s.byteAt s.pc.toNat ++ s.byteAt (s.pc.toNat + 1) = 0x1000#16 ||| s.pc →
    ∃ t, RunsTo n s t ∧ t.dt.toNat = s.dt.toNat - n ∧ t.st.toNat = s.st.toNat - n ∧ Unchanged [.dt, .st] s t

/-! ### Load, arithmetic, logic, shift, random -/

/-- `6xkk` and `8xy0` (R111, R113). -/
def Obligations.LoadsIntoRegister : Prop :=
  Recognized 0xF000 0x6000 (fun w => .ldVxKk (fieldX w) (fieldKk w)) ∧
  Recognized 0xF00F 0x8000 (fun w => .ldVxVy (fieldX w) (fieldY w)) ∧
  ∀ (x y : Nibble) (kk : Byte) (s : State),
    (∃ t, Sys2Proof.Machine.exec (.ldVxKk x kk) s = .next t ∧ t.reg x = kk ∧ Unchanged [.v x] s t) ∧
    (∃ t, Sys2Proof.Machine.exec (.ldVxVy x y) s = .next t ∧ t.reg x = s.reg y ∧ Unchanged [.v x] s t)

/-- `7xkk` (R112): the sum modulo 256, no carry output: VF is not written unless it is the destination. Twice after `6x00`
it leaves 2 * kk modulo 256. -/
def Obligations.AddImmediateWraps : Prop :=
  Recognized 0xF000 0x7000 (fun w => .addVxKk (fieldX w) (fieldKk w)) ∧
  (∀ (x : Nibble) (kk : Byte) (s : State), ∃ t, Sys2Proof.Machine.exec (.addVxKk x kk) s = .next t ∧
    (t.reg x).toNat = ((s.reg x).toNat + kk.toNat) % 256 ∧ (x ≠ vf → t.reg vf = s.reg vf) ∧
    Unchanged [.v x] s t) ∧
  (∀ (x : Nibble) (kk : Byte) (s t u w : State), Sys2Proof.Machine.exec (.ldVxKk x 0) s = .next t →
    Sys2Proof.Machine.exec (.addVxKk x kk) t = .next u → Sys2Proof.Machine.exec (.addVxKk x kk) u = .next w →
    (w.reg x).toNat = (2 * kk.toNat) % 256)

/-- `8xy1`, `8xy2`, `8xy3` (R114, R115, R116): bit by bit; VF is not written unless it is the destination. -/
def Obligations.LogicIsBitwise : Prop :=
  Recognized 0xF00F 0x8001 (fun w => .orVxVy (fieldX w) (fieldY w)) ∧
  Recognized 0xF00F 0x8002 (fun w => .andVxVy (fieldX w) (fieldY w)) ∧
  Recognized 0xF00F 0x8003 (fun w => .xorVxVy (fieldX w) (fieldY w)) ∧
  ∀ (x y : Nibble) (s : State),
    (∃ t, Sys2Proof.Machine.exec (.orVxVy x y) s = .next t ∧ Unchanged [.v x] s t ∧
      ∀ j < 8, (t.reg x).getLsbD j = ((s.reg x).getLsbD j || (s.reg y).getLsbD j)) ∧
    (∃ t, Sys2Proof.Machine.exec (.andVxVy x y) s = .next t ∧ Unchanged [.v x] s t ∧
      ∀ j < 8, (t.reg x).getLsbD j = ((s.reg x).getLsbD j && (s.reg y).getLsbD j)) ∧
    (∃ t, Sys2Proof.Machine.exec (.xorVxVy x y) s = .next t ∧ Unchanged [.v x] s t ∧
      (∀ j < 8, (t.reg x).getLsbD j = ((s.reg x).getLsbD j != (s.reg y).getLsbD j)) ∧ (x = y → t.reg x = 0))

/-- `8xy4`: the sum modulo 256 in V[x]; VF is the carry of the 9-bit sum unless x is F, when the sum lands last (the write
order is the spec's own decision D6, log 17). -/
def Obligations.AddSetsCarry : Prop :=
  Recognized 0xF00F 0x8004 (fun w => .addVxVy (fieldX w) (fieldY w)) ∧
  ∀ (x y : Nibble) (s : State), ∃ t, Sys2Proof.Machine.exec (.addVxVy x y) s = .next t ∧
    (t.reg x).toNat = ((s.reg x).toNat + (s.reg y).toNat) % 256 ∧
    (x ≠ vf → (t.reg vf).toNat = if (s.reg x).toNat + (s.reg y).toNat > 255 then 1 else 0) ∧
    Unchanged [.v x, .v vf] s t

/-- `8xy5` and `8xy7`: the difference modulo 256, either way round; VF is 1 when there was no borrow, equal operands
included, unless x is F, when the difference lands last (log 17). -/
def Obligations.SubtractionsSetNoBorrow : Prop :=
  Recognized 0xF00F 0x8005 (fun w => .subVxVy (fieldX w) (fieldY w)) ∧
  Recognized 0xF00F 0x8007 (fun w => .subnVxVy (fieldX w) (fieldY w)) ∧
  ∀ (x y : Nibble) (s : State),
    (∃ t, Sys2Proof.Machine.exec (.subVxVy x y) s = .next t ∧
      ((t.reg x).toNat : Int) = ((s.reg x).toNat - (s.reg y).toNat : Int) % 256 ∧
      (x ≠ vf → (t.reg vf).toNat = if (s.reg x).toNat ≥ (s.reg y).toNat then 1 else 0) ∧
      Unchanged [.v x, .v vf] s t) ∧
    (∃ t, Sys2Proof.Machine.exec (.subnVxVy x y) s = .next t ∧
      ((t.reg x).toNat : Int) = ((s.reg y).toNat - (s.reg x).toNat : Int) % 256 ∧
      (x ≠ vf → (t.reg vf).toNat = if (s.reg y).toNat ≥ (s.reg x).toNat then 1 else 0) ∧
      Unchanged [.v x, .v vf] s t)

/-- `8xy6` and `8xyE`: by exactly one place, zeros shifted in, the bit shifted out in VF unless x is F (log 17); the y field
makes no difference. -/
def Obligations.ShiftsMoveOneBitIntoVf : Prop :=
  Recognized 0xF00F 0x8006 (fun w => .shrVx (fieldX w) (fieldY w)) ∧
  Recognized 0xF00F 0x800E (fun w => .shlVx (fieldX w) (fieldY w)) ∧
  ∀ (x y z : Nibble) (s : State),
    (∃ t, Sys2Proof.Machine.exec (.shrVx x y) s = .next t ∧ Sys2Proof.Machine.exec (.shrVx x z) s = .next t ∧
      (t.reg x).toNat = (s.reg x).toNat / 2 ∧ (x ≠ vf → (t.reg vf).toNat = (s.reg x).toNat % 2) ∧
      Unchanged [.v x, .v vf] s t) ∧
    (∃ t, Sys2Proof.Machine.exec (.shlVx x y) s = .next t ∧ Sys2Proof.Machine.exec (.shlVx x z) s = .next t ∧
      (t.reg x).toNat = (2 * (s.reg x).toNat) % 256 ∧ (x ≠ vf → (t.reg vf).toNat = (s.reg x).toNat / 128) ∧
      Unchanged [.v x, .v vf] s t)

/-- `Cxkk`: V[x] is kk AND the next byte supplied from outside, which is used up; whatever that byte is, no bit outside kk is
set and nothing else changes (the byte as a free value is the spec's own decision D21, log 5). -/
def Obligations.RandomIsMaskedByKk : Prop :=
  Recognized 0xF000 0xC000 (fun w => .rndVxKk (fieldX w) (fieldKk w)) ∧
  ∀ (x : Nibble) (kk : Byte) (s : State),
    (∃ t, Sys2Proof.Machine.exec (.rndVxKk x kk) s = .next t ∧ t.reg x = kk &&& freeRandomByte s.draws ∧
      t = loadRandom x kk (freeRandomByte s.draws) s) ∧
    ∀ rnd : Byte, (loadRandom x kk rnd s).reg x = kk &&& rnd ∧ (loadRandom x kk rnd s).draws = s.draws + 1 ∧
      (∀ j, kk.getLsbD j = false → ((loadRandom x kk rnd s).reg x).getLsbD j = false) ∧
      Unchanged [.v x, .draws] s (loadRandom x kk rnd s)

/-! ### The address register and memory -/

/-- `Annn`, `Fx1E`, `Fx29` (R130, R131, R132): I becomes nnn; the 16-bit sum of I and V[x], not masked and with no flag;
0x050 + 5 * V[x] with the whole byte, past the font where V[x] > 15. -/
def Obligations.WritesOfI : Prop :=
  Recognized 0xF000 0xA000 (fun w => .ldINnn (fieldNnn w)) ∧
  Recognized 0xF0FF 0xF01E (fun w => .addIVx (fieldX w)) ∧
  Recognized 0xF0FF 0xF029 (fun w => .ldFVx (fieldX w)) ∧
  ∀ (nnn : Addr12) (x : Nibble) (s : State),
    (∃ t, Sys2Proof.Machine.exec (.ldINnn nnn) s = .next t ∧ t.iReg.toNat = nnn.toNat ∧ Unchanged [.i] s t) ∧
    (∃ t, Sys2Proof.Machine.exec (.addIVx x) s = .next t ∧
      t.iReg.toNat = (s.iReg.toNat + (s.reg x).toNat) % 65536 ∧ Unchanged [.i] s t) ∧
    (∃ t, Sys2Proof.Machine.exec (.ldFVx x) s = .next t ∧ t.iReg.toNat = 0x050 + 5 * (s.reg x).toNat ∧
      Unchanged [.i] s t)

/-- `Fx33` (R133): the hundreds, tens and ones of V[x] at I, I+1 and I+2, digits that make up V[x]; every other byte and all
else unchanged. With I > 0xFFD it raises MemoryOutOfRange with the lowest address out of range. (That I is unchanged is the
spec's own decision D35, log 28; that the font is written like any other address is D10, log 20.) -/
def Obligations.DecimalDigitsAreStored : Prop :=
  Recognized 0xF0FF 0xF033 (fun w => .ldBVx (fieldX w)) ∧
  ∀ (x : Nibble) (s : State),
    (dataAddress s 2 ≤ 4095 → ∃ t, Sys2Proof.Machine.exec (.ldBVx x) s = .next t ∧
      (t.byteAt (dataAddress s 0)).toNat = (s.reg x).toNat / 100 ∧
      (t.byteAt (dataAddress s 1)).toNat = (s.reg x).toNat / 10 % 10 ∧
      (t.byteAt (dataAddress s 2)).toNat = (s.reg x).toNat % 10 ∧
      Unchanged [.bytes (dataAddress s 0) 3] s t) ∧
    (4095 < dataAddress s 2 →
      Sys2Proof.Machine.exec (.ldBVx x) s = .fault (.memoryOutOfRange (max s.iReg.toNat 4096)))

/-- `Fx55` (R134): V[0]..V[x], x included, at I..I+x; every other byte, I and the registers unchanged. With I + x > 4095 it
raises MemoryOutOfRange. (That I is unchanged is the spec's own decision D35, log 28; that the font is written like any other
address is D10, log 20.) -/
def Obligations.RegistersAreStored : Prop :=
  Recognized 0xF0FF 0xF055 (fun w => .ldMemVx (fieldX w)) ∧
  ∀ (x : Nibble) (s : State),
    (dataAddress s x.toNat ≤ 4095 → ∃ t, Sys2Proof.Machine.exec (.ldMemVx x) s = .next t ∧
      (∀ r : Nibble, r.toNat ≤ x.toNat → t.byteAt (dataAddress s r.toNat) = s.reg r) ∧
      Unchanged [.bytes (dataAddress s 0) (x.toNat + 1)] s t) ∧
    (4095 < dataAddress s x.toNat →
      Sys2Proof.Machine.exec (.ldMemVx x) s = .fault (.memoryOutOfRange (max s.iReg.toNat 4096)))

/-- `Fx65` (R135): V[0]..V[x] from I..I+x; the other registers, I and every byte of memory unchanged. With I + x > 4095 it
raises MemoryOutOfRange. (That I is unchanged is the spec's own decision D35, log 28.) -/
def Obligations.RegistersAreLoaded : Prop :=
  Recognized 0xF0FF 0xF065 (fun w => .ldVxMem (fieldX w)) ∧
  ∀ (x : Nibble) (s : State),
    (dataAddress s x.toNat ≤ 4095 → ∃ t, Sys2Proof.Machine.exec (.ldVxMem x) s = .next t ∧
      (∀ r : Nibble, r.toNat ≤ x.toNat → t.reg r = s.byteAt (dataAddress s r.toNat)) ∧
      (∀ r : Nibble, x.toNat < r.toNat → t.reg r = s.reg r) ∧
      Unchanged (regsUpTo x) s t) ∧
    (4095 < dataAddress s x.toNat →
      Sys2Proof.Machine.exec (.ldVxMem x) s = .fault (.memoryOutOfRange (max s.iReg.toNat 4096)))

/-- The memory primitives (R31, R32): a read inside 0..4095 gives the byte, a write inside it changes that byte and nothing
else, and outside both raise MemoryOutOfRange with the address. -/
def Obligations.MemoryReadsLastWrite : Prop :=
  ∀ (s : State) (a : Nat) (v : Byte),
    (a ≤ 4095 → memRead s a = .ok (s.byteAt a) ∧
      ∃ t, memWrite s a v = .ok t ∧ memRead t a = .ok v ∧ Unchanged [.bytes a 1] s t) ∧
    (4095 < a → memRead s a = .error (.memoryOutOfRange a) ∧ memWrite s a v = .error (.memoryOutOfRange a))

/-- A store into code is what a later fetch sees (20_memory.md section 6; derived): after `Fx55` or `Fx33`, as an execute phase
or as the whole cycle that fetched it, a fetch at any PC up to 0xFFE gives the word of the stored bytes where the range stored
to has them and of the bytes of before elsewhere, the lower address high. -/
def Obligations.StoredCodeIsFetched : Prop :=
  ∀ (x : Nibble) (s t : State) (pc : Word), pc.toNat ≤ 0xFFE →
    (Sys2Proof.Machine.exec (.ldMemVx x) s = .next t ∨
        (step s = .next t ∧ ∃ w, fetch s = .ok w ∧ decodeWord w = some (.ldMemVx x)) →
      fetch { t with pc := pc } = .ok (byteAfterRegs s x pc.toNat ++ byteAfterRegs s x (pc.toNat + 1))) ∧
    (Sys2Proof.Machine.exec (.ldBVx x) s = .next t ∨
        (step s = .next t ∧ ∃ w, fetch s = .ok w ∧ decodeWord w = some (.ldBVx x)) →
      fetch { t with pc := pc } = .ok (byteAfterDigits s x pc.toNat ++ byteAfterDigits s x (pc.toNat + 1)))

/-! ### The display -/

/-- `00E0` (R140): every pixel off; VF and everything else unchanged, no pulse (that `00E0` requests no render is the spec's own
decision D22, and the pulse as a field is the model's: log 13). -/
def Obligations.ClsClearsEveryPixel : Prop :=
  decodeWord 0x00E0 = some .cls ∧
  ∀ s : State, ∃ t, Sys2Proof.Machine.exec .cls s = .next t ∧ (∀ r c, t.display.pixel r c = false) ∧
    Unchanged [.pixels] s t

/-- `Dxyn`: a pixel is inverted exactly when the sprite has a 1 bit for it, rows wrapping at 32 and columns as the column
policy says; VF is 1 exactly when some pixel went from 1 to 0; coordinates are those before VF is written; `render_req` is
pulsed; nothing else changes. A sprite byte outside memory raises MemoryOutOfRange before anything is written. With n = 0
nothing is read. (Column policy D3, sampling D4, n = 0 D5, the pulse D22 and the unchanged I D35 are the spec's own decisions:
logs 3, 13, 16, 28.) -/
def Obligations.DrawTogglesCoveredPixels : Prop :=
  Recognized 0xF000 0xD000 (fun w => .drwVxVyN (fieldX w) (fieldY w) (fieldN w)) ∧
  ∀ (x y n : Nibble) (s : State),
    (n = 0 ∨ s.iReg.toNat + n.toNat - 1 ≤ 4095 → ∃ t, Sys2Proof.Machine.exec (.drwVxVyN x y n) s = .next t ∧
      (∀ r c, SpriteCovers s x y n r c → t.display.pixel r c = !s.display.pixel r c) ∧
      (∀ r c, ¬ SpriteCovers s x y n r c → t.display.pixel r c = s.display.pixel r c) ∧
      ((∃ r c, SpriteCovers s x y n r c ∧ s.display.pixel r c = true) → t.reg vf = 1) ∧
      ((∀ r c, SpriteCovers s x y n r c → s.display.pixel r c = false) → t.reg vf = 0) ∧
      t.pulse = some .renderReq ∧ Unchanged [.v vf, .pixels, .pulse] s t) ∧
    (n ≠ 0 → 4095 < s.iReg.toNat + n.toNat - 1 →
      Sys2Proof.Machine.exec (.drwVxVyN x y n) s = .fault (.memoryOutOfRange (max s.iReg.toNat 4096)))

/-- `Dxy0` completes at every I, reads nothing, changes no pixel, clears VF and pulses `render_req` (44_display.md, Dxy0; the
spec's own decision D5, log 16). -/
def Obligations.DrawOfHeightZero : Prop :=
  ∀ (x y : Nibble) (s : State), ∃ t, Sys2Proof.Machine.exec (.drwVxVyN x y 0) s = .next t ∧ t.reg vf = 0 ∧
    t.pulse = some .renderReq ∧ Unchanged [.v vf, .pulse] s t

/-- Drawing the same sprite twice at the same place restores the display, under both column policies; the second draw reports
a collision exactly when the sprite has a 1 bit over a pixel that was off before the first, the first exactly when over one
that was on (44_display.md, XOR laws). The place is the same when the first draw leaves V[x] and V[y] as they were: it writes
VF, so with x or y = F that is a condition on the values, and the coordinates are those before VF is written (the spec's own
decision D4, log 16). -/
def Obligations.DrawTwiceRestores : Prop :=
  ∀ (x y n : Nibble) (s t u : State), Sys2Proof.Machine.exec (.drwVxVyN x y n) s = .next t →
    t.reg x = s.reg x → t.reg y = s.reg y → Sys2Proof.Machine.exec (.drwVxVyN x y n) t = .next u →
    (∀ r c, u.display.pixel r c = s.display.pixel r c) ∧
    (u.reg vf = 1 ↔ ∃ r c, SpriteCovers s x y n r c ∧ s.display.pixel r c = false) ∧
    (t.reg vf = 1 ↔ ∃ r c, SpriteCovers s x y n r c ∧ s.display.pixel r c = true)

/-! ### Keyboard and timers -/

/-- `Ex9E` and `ExA1` skip on the key flag that the whole byte V[x] names; above 15 they raise KeyOutOfRange (the fault is the
spec's own decision D7, log 14; that a skip not taken sets `pcSet` too is D31, log 29). -/
def Obligations.KeySkips : Prop :=
  Recognized 0xF0FF 0xE09E (fun w => .skpVx (fieldX w)) ∧
  Recognized 0xF0FF 0xE0A1 (fun w => .sknpVx (fieldX w)) ∧
  ∀ (x k : Nibble) (s : State),
    ((s.reg x).toNat = k.toNat →
      (∃ t, Sys2Proof.Machine.exec (.skpVx x) s = .next t ∧ t.pcSet = true ∧ Unchanged [.pc] s t ∧
        t.pc.toNat = (s.pc.toNat + if s.key k = true then 4 else 2) % 65536) ∧
      (∃ t, Sys2Proof.Machine.exec (.sknpVx x) s = .next t ∧ t.pcSet = true ∧ Unchanged [.pc] s t ∧
        t.pc.toNat = (s.pc.toNat + if s.key k = false then 4 else 2) % 65536)) ∧
    (15 < (s.reg x).toNat → Sys2Proof.Machine.exec (.skpVx x) s = .fault (.keyOutOfRange (s.reg x)) ∧
      Sys2Proof.Machine.exec (.sknpVx x) s = .fault (.keyOutOfRange (s.reg x)))

/-- `Fx0A`: with no key down it sets PC to itself and changes nothing; with a key down V[x] gets a key that is down, every
flag is cleared, PC is left to the advance, and nothing else changes. Where the first entry of the parameter for the flags names
a down key, that is the key taken; where it names a key that is up, or there is no entry for the flags (the default parameter
has none), the key is the lowest one down (which key and which flags are the spec's own decisions D8, D9: logs 4, 15). -/
def Obligations.KeyWaitTakesADownKey : Prop :=
  Recognized 0xF0FF 0xF00A (fun w => .ldVxK (fieldX w)) ∧
  ∀ (x : Nibble) (s : State),
    ((∀ k, s.key k = false) → ∃ t, Sys2Proof.Machine.exec (.ldVxK x) s = .next t ∧ t.pcSet = true ∧ t.pc = s.pc ∧
      Unchanged [.pc] s t) ∧
    ((∃ k, s.key k = true) → ∃ t k, Sys2Proof.Machine.exec (.ldVxK x) s = .next t ∧ s.key k = true ∧
      (t.reg x).toNat = k.toNat ∧ (∀ j, t.key j = false) ∧ Unchanged [.v x, .keys] s t ∧
      ((∀ e ∈ s.params.keySelect, e.1 ≠ s.keys) → ∀ j, s.key j = true → k.toNat ≤ j.toNat) ∧
      ∀ earlier j later, s.params.keySelect = earlier ++ (s.keys, j) :: later → (∀ e ∈ earlier, e.1 ≠ s.keys) →
        (s.key j = true → k = j) ∧ (s.key j = false → ∀ m, s.key m = true → k.toNat ≤ m.toNat))

/-- The wait of `Fx0A` is a polling loop: while no key is down, any number of cycles complete, PC stays on the `Fx0A`, and the
timers tick in every one of them (45_keyboard_timers.md, corner case (a) of `Fx0A`). -/
def Obligations.KeyWaitPolls : Prop :=
  ∀ (n : Nat) (x : Nibble) (s : State), s.run ≠ .idle → s.pcSet = false → s.pulse = none → s.pc.toNat ≤ 0xFFE →
    decodeWord (s.byteAt s.pc.toNat ++ s.byteAt (s.pc.toNat + 1)) = some (.ldVxK x) → (∀ k, s.key k = false) →
    ∃ t, RunsTo n s t ∧ t.dt.toNat = s.dt.toNat - n ∧ t.st.toNat = s.st.toNat - n ∧ Unchanged [.dt, .st] s t

/-- `Fx07`, `Fx15`, `Fx18` (R153, R154, R155): the copies between V[x] and the timers, and the tick of the same cycle: `Fx15`
with V[x] > 0 leaves DT = V[x] - 1 and with 0 leaves 0, and `Fx07` gives the value before the tick. -/
def Obligations.TimerMoves : Prop :=
  Recognized 0xF0FF 0xF007 (fun w => .ldVxDt (fieldX w)) ∧
  Recognized 0xF0FF 0xF015 (fun w => .ldDtVx (fieldX w)) ∧
  Recognized 0xF0FF 0xF018 (fun w => .ldStVx (fieldX w)) ∧
  ∀ (x : Nibble) (s : State),
    (∃ t, Sys2Proof.Machine.exec (.ldVxDt x) s = .next t ∧ t.reg x = s.dt ∧ Unchanged [.v x] s t) ∧
    (∃ t, Sys2Proof.Machine.exec (.ldDtVx x) s = .next t ∧ t.dt = s.reg x ∧ Unchanged [.dt] s t) ∧
    (∃ t, Sys2Proof.Machine.exec (.ldStVx x) s = .next t ∧ t.st = s.reg x ∧ Unchanged [.st] s t) ∧
    (∃ t, executeWord (encode (.ldVxDt x)) s = .next t ∧ t.reg x = s.dt ∧ t.dt.toNat = s.dt.toNat - 1) ∧
    (∃ t, executeWord (encode (.ldDtVx x)) s = .next t ∧ t.dt.toNat = (s.reg x).toNat - 1) ∧
    (∃ t, executeWord (encode (.ldStVx x)) s = .next t ∧ t.st.toNat = (s.reg x).toNat - 1)

/-! ### Whole-machine rules -/

/-- Only `2nnn` and `00EE` change SP or a slot (R14, the stack's readers and writers). -/
def Obligations.OnlyCallAndRetChangeTheStack : Prop :=
  ∀ (s t : State) (w : Word), fetch s = .ok w → step s = .next t →
    (∀ nnn, decodeWord w ≠ some (.call nnn)) → decodeWord w ≠ some .ret → t.sp = s.sp ∧ ∀ k, t.slot k = s.slot k

/-- Only `Fx33` and `Fx55` change memory, and only the bytes at I..I+2 and I..I+x (20_memory.md, which instructions reach
Memory). -/
def Obligations.OnlyStoresChangeMemory : Prop :=
  ∀ (s t : State) (w : Word) (a : Nat), fetch s = .ok w → step s = .next t → t.byteAt a ≠ s.byteAt a →
    (∃ x, decodeWord w = some (.ldBVx x) ∧ s.iReg.toNat ≤ a ∧ a ≤ s.iReg.toNat + 2) ∨
    (∃ x : Nibble, decodeWord w = some (.ldMemVx x) ∧ s.iReg.toNat ≤ a ∧ a ≤ s.iReg.toNat + x.toNat)

/-- Only `00E0` and `Dxyn` change a pixel (10_state.md, the display buffer). -/
def Obligations.OnlyClsAndDrwChangePixels : Prop :=
  ∀ (s t : State) (w : Word), fetch s = .ok w → step s = .next t → decodeWord w ≠ some .cls →
    (∀ x y n, decodeWord w ≠ some (.drwVxVyN x y n)) → ∀ r c, t.display.pixel r c = s.display.pixel r c

/-- A key flag is changed only by an `Fx0A` that takes a key, and then every flag is down to 0 (10_state.md, the key flags;
that all are cleared is the spec's own decision D9, log 15). -/
def Obligations.OnlyKeyWaitChangesKeys : Prop :=
  ∀ (s t : State) (w : Word) (k : Nibble), fetch s = .ok w → step s = .next t → t.key k ≠ s.key k →
    (∃ x, decodeWord w = some (.ldVxK x)) ∧ ∀ j, t.key j = false

/-- I is written only by `Annn`, `Fx1E` and `Fx29`; in particular the loads, stores and draws leave it alone (10_state.md, the
address register; that they do is the spec's own decision D35, log 28). -/
def Obligations.OnlyThreeInstructionsChangeI : Prop :=
  ∀ (s t : State) (w : Word), fetch s = .ok w → step s = .next t → t.iReg ≠ s.iReg →
    (∃ nnn, decodeWord w = some (.ldINnn nnn)) ∨ (∃ x, decodeWord w = some (.addIVx x)) ∨
    (∃ x, decodeWord w = some (.ldFVx x))

/-- No step changes IMAGE, RUN or the parameters (R19, R20: no instruction reads or writes them; the parameters: log 1). -/
def Obligations.NoStepChangesImageOrRun : Prop :=
  ∀ s t : State, step s = .next t → t.image = s.image ∧ t.run = s.run ∧ t.params = s.params

/-- VF changes only as the flag of `8xy4` to `8xyE` and `Dxyn`, or as a named destination: with x = F, or by `Fx65` with x = F
(10_state.md, the flag register). -/
def Obligations.WhoChangesVf : Prop :=
  ∀ (s t : State) (w : Word), fetch s = .ok w → step s = .next t → t.reg vf ≠ s.reg vf →
    (∃ x y, decodeWord w = some (.addVxVy x y) ∨ decodeWord w = some (.subVxVy x y) ∨
      decodeWord w = some (.shrVx x y) ∨ decodeWord w = some (.subnVxVy x y) ∨ decodeWord w = some (.shlVx x y)) ∨
    (∃ x y n, decodeWord w = some (.drwVxVyN x y n)) ∨
    (∃ kk, decodeWord w = some (.ldVxKk vf kk) ∨ decodeWord w = some (.addVxKk vf kk) ∨
      decodeWord w = some (.rndVxKk vf kk)) ∨
    (∃ y, decodeWord w = some (.ldVxVy vf y) ∨ decodeWord w = some (.orVxVy vf y) ∨
      decodeWord w = some (.andVxVy vf y) ∨ decodeWord w = some (.xorVxVy vf y)) ∨
    decodeWord w = some (.ldVxDt vf) ∨ decodeWord w = some (.ldVxK vf) ∨ decodeWord w = some (.ldVxMem vf)

/-- Which instruction raises which fault, and no other: the host's faults are raised by no instruction, and most instructions
raise none (R168 and the list of cases; the fault set is the spec's own decision D15, log 27). -/
def Obligations.FaultsOfEachInstruction : Prop :=
  ∀ (i : Instr) (s : State) (f : Fault), Sys2Proof.Machine.exec i s = .fault f →
    (∃ nnn, i = .call nnn ∧ f = .stackOverflow 15 ∧ s.sp.val = 15) ∨
    (i = .ret ∧ f = .stackUnderflow 0 ∧ s.sp.val = 0) ∨
    (∃ x, (i = .skpVx x ∨ i = .sknpVx x) ∧ f = .keyOutOfRange (s.reg x) ∧ 15 < (s.reg x).toNat) ∨
    (((∃ x, i = .ldBVx x ∨ i = .ldMemVx x ∨ i = .ldVxMem x) ∨ ∃ x y n, i = .drwVxVyN x y n) ∧
      f = .memoryOutOfRange (max s.iReg.toNat 4096))

/-- Every instruction answers a next state or a fault, never a refusal. -/
def Obligations.NoInstructionIsRefused : Prop :=
  ∀ (i : Instr) (s : State) (r : Refusal), Sys2Proof.Machine.exec i s ≠ .refused r

/-- `render_req` is out after a step exactly when its word was a `Dxyn`, and `decode_fail` exactly when it was unrecognized,
with that word and PC (40_cycle.md, what the dispatcher passes to the collaborators; log 13). -/
def Obligations.PulsesOfAStep : Prop :=
  ∀ (s t : State) (w : Word), fetch s = .ok w → step s = .next t →
    (t.pulse = some .renderReq ↔ ∃ x y n, decodeWord w = some (.drwVxVyN x y n)) ∧
    (∀ u pc, t.pulse = some (.decodeFail u pc) ↔ decodeWord w = none ∧ u = w ∧ pc = s.pc)

/-- A step that faults faults again, however often it is tried: nothing latches the fault and nothing has changed
(60_exceptions.md, no return, no nesting; the spec's own decisions D2, D32, log 11). -/
def Obligations.FaultRepeats : Prop :=
  ∀ (n : Nat) (s : State) (f : Fault), step s = .fault f →
    drive (List.replicate n (.control .step)) s = s ∧
    afterCall (drive (List.replicate n (.control .step)) s)
      (step (drive (List.replicate n (.control .step)) s)) = (s, some f)

/-! ### Invariants -/

/-- Every step keeps memory in canonical form, so equal memories stay equal data (the form is the model's, log 25). -/
def Obligations.StepKeepsMemoryCanonical : Prop :=
  ∀ s t : State, s.MemoryCanonical → step s = .next t → t.MemoryCanonical

/-- Every move of the host, `step` among them, keeps what holds between cycles: canonical memory, an image that fits, an image
whenever a program is loaded, no `pcSet` left over. -/
def Obligations.HostMovesKeepBetweenCycles : Prop :=
  ∀ (m : HostMove) (s t : State), s.BetweenCycles → hostMove m s = .next t → t.BetweenCycles

/-- Every step keeps PC at or below 0x10FE and every stack slot at or below 0xFFE (70_reset_and_hazards.md, I can leave the
address space: reachable values). -/
def Obligations.StepKeepsPcBounded : Prop :=
  ∀ s t : State, s.PcBounded → step s = .next t → t.PcBounded

/-- The state after reset meets the invariants. -/
def Obligations.ResetMeetsInvariants : Prop :=
  State.reset.BetweenCycles ∧ State.reset.PcBounded

/-! ### Reset, load and the host -/

/-- `load(bytes)` (70_reset_and_hazards.md, loadProgram; 10_state.md, reset values): with at most 3584 bytes it ends in the
reset state of the image: every register 0, PC = 0x200, the display clear, FONT at 0x050, the image at 0x200, zeros elsewhere,
the key flags as they were, RUN ready. A longer image raises MemoryOutOfRange(4096) (zeroed slots D12, keys D27 and the
rejection D20 are the spec's own decisions: logs 8, 7, 22). -/
def Obligations.LoadResetsAndPlacesTheImage : Prop :=
  ∀ (bytes : List Byte) (s : State),
    (bytes.length ≤ 3584 → ∃ t, hostControl (.load bytes) s = .next t ∧
      (∀ x, t.reg x = 0) ∧ t.iReg = 0 ∧ t.pc = 0x200 ∧ t.sp = 0 ∧ (∀ k, t.slot k = 0) ∧ t.dt = 0 ∧ t.st = 0 ∧
      (∀ r c, t.display.pixel r c = false) ∧
      (∀ j : Fin 80, t.byteAt (0x050 + j.val) = s.params.font[j]) ∧
      (∀ (j : Nat) (h : j < bytes.length), t.byteAt (0x200 + j) = bytes[j]) ∧
      (∀ a, a < 0x050 ∨ (0x0A0 ≤ a ∧ a < 0x200) ∨ 0x200 + bytes.length ≤ a → t.byteAt a = 0) ∧
      (∀ k, t.key k = s.key k) ∧ t.image = some bytes ∧ t.run = .ready ∧ t.params = s.params) ∧
    (3584 < bytes.length → hostControl (.load bytes) s = .fault (.memoryOutOfRange 4096))

/-- `reset` outside `idle` (70_reset_and_hazards.md, engine reset): the retained image is copied again to 0x200 and FONT to 0x050,
every other byte is 0, every register 0, PC = 0x200, the display clear, RUN ready, the key flags and IMAGE as they were; so
whatever ran since the load, the same state results, up to the key flags and what belongs to the outside. (Zeroed slots D12 and
untouched keys D27 are the spec's own decisions: logs 8, 7. That an image is present and fits is the invariant of
HostMovesKeepBetweenCycles.) -/
def Obligations.ResetForgetsTheRun : Prop :=
  (∀ (s : State) (img : List Byte), s.run ≠ .idle → s.image = some img → img.length ≤ 3584 →
    ∃ u, hostControl .reset s = .next u ∧
      (∀ x, u.reg x = 0) ∧ u.iReg = 0 ∧ u.pc = 0x200 ∧ u.sp = 0 ∧ (∀ k, u.slot k = 0) ∧ u.dt = 0 ∧ u.st = 0 ∧
      (∀ r c, u.display.pixel r c = false) ∧
      (∀ j : Fin 80, u.byteAt (0x050 + j.val) = s.params.font[j]) ∧
      (∀ (j : Nat) (h : j < img.length), u.byteAt (0x200 + j) = img[j]) ∧
      (∀ a, a < 0x050 ∨ (0x0A0 ≤ a ∧ a < 0x200) ∨ 0x200 + img.length ≤ a → u.byteAt a = 0) ∧
      (∀ k, u.key k = s.key k) ∧ u.image = some img ∧ u.run = .ready ∧ u.params = s.params) ∧
  (∀ s t : State, s.run ≠ .idle → t.run ≠ .idle → s.image ≠ none → t.image = s.image → t.keys = s.keys →
    t.params = s.params → t.draws = s.draws →
    ∃ u, hostControl .reset s = .next u ∧ hostControl .reset t = .next u ∧ u.run = .ready ∧ u.pc = 0x200 ∧
      u.image = s.image)

/-- The reset state: PC at the entry point 0x200, every register, timer and stack slot 0, every pixel off, FONT in place and
every other byte 0, RUN ready (R23); every key up and the empty image. (Slots, keys, image: logs 8, 7, 6; FONT: log 2.) -/
def Obligations.ResetState : Prop :=
  (∀ x, State.reset.reg x = 0) ∧ State.reset.iReg = 0 ∧ State.reset.pc = 0x200 ∧ State.reset.sp = 0 ∧
  (∀ k, State.reset.slot k = 0) ∧
  State.reset.dt = 0 ∧ State.reset.st = 0 ∧ (∀ r c, State.reset.display.pixel r c = false) ∧
  (∀ j : Fin 80, State.reset.byteAt (0x050 + j.val) = defaultFont[j]) ∧ State.reset.params.font = defaultFont ∧
  (∀ a, a < 0x050 ∨ 0x0A0 ≤ a → State.reset.byteAt a = 0) ∧
  (∀ k, State.reset.key k = false) ∧ State.reset.image = some [] ∧ State.reset.run = .ready

/-- The run control (60_exceptions.md, run control): run, pause, stop and resume move RUN as the table says and change nothing
else; `run` and `step` from `idle` raise NoProgramLoaded; every other pair raises InvalidTransition (the filling of the table
is the spec's own decision D18, D30, log 22). -/
def Obligations.RunControlTable : Prop :=
  ∀ s : State,
    hostControl .run s = (match s.run with
      | .ready => .next { s with run := .running }
      | .idle => .fault .noProgramLoaded
      | .running | .paused => .fault (.invalidTransition .run s.run)) ∧
    (∀ op ∈ [ControlOp.pause, ControlOp.stop], hostControl op s =
      if s.run = .running then .next { s with run := .paused } else .fault (.invalidTransition op s.run)) ∧
    (hostControl .resume s =
      if s.run = .paused then .next { s with run := .running } else .fault (.invalidTransition .resume s.run)) ∧
    hostControl .step s = step s ∧ (s.run = .idle → hostControl .step s = .fault .noProgramLoaded) ∧
    (s.run = .idle → ∃ t, hostControl .reset s = .next t ∧ t.run = .idle ∧ t.pc = 0 ∧ t.image = s.image)

/-- The host's accessors (10_state.md, host accessors): in range they read and write one register, slot or byte, the value
truncated to its width, and nothing else; out of range they raise (log 22). -/
def Obligations.HostAccessorsAreBoundsChecked : Prop :=
  ∀ (s : State) (i v : Nat),
    (i ≤ 15 → ∃ t u, setRegister s i v = .ok t ∧ getRegister t i = .ok (BitVec.ofNat 8 v) ∧
      Unchanged [.v (BitVec.ofNat 4 i)] s t ∧ setStack s i v = .ok u ∧ getStack u i = .ok (BitVec.ofNat 16 v) ∧
      Unchanged [.slot (Fin.ofNat 16 i)] s u) ∧
    (15 < i → setRegister s i v = .error (.registerIndexOutOfRange i) ∧
      getRegister s i = .error (.registerIndexOutOfRange i) ∧
      setStack s i v = .error (.registerIndexOutOfRange i) ∧ getStack s i = .error (.registerIndexOutOfRange i))

/-- The model's placing of a word: from every state the very next step runs exactly that word as a cycle (log 24). -/
def Obligations.PlacedWordRunsNext : Prop :=
  ∀ (s : State) (w : Nat), w < 65536 →
    step (s.withFetchWord 16 w) = executeWord (BitVec.ofNat 16 w) (s.withFetchWord 16 w) ∧
    (s.run ≠ .idle → s.pc.toNat ≤ 0xFFE → Unchanged [.bytes s.pc.toNat 2] s (s.withFetchWord 16 w))
end

