-- ==== Sys2Proof/Laws/Decode.lean ====
section
/-! SUPPORT. The fields of a word as numbers, the fields of a concatenation, and the bytes of a word: what the proofs about
the decoder and the encoder need of bit vectors. -/

namespace Sys2Proof

/-! ### A field is a digit of the word's number -/

theorem toNat_fieldOp (w : Word) : (fieldOp w).toNat = w.toNat / 4096 := by
  have := w.isLt
  simp [fieldOp, Nat.shiftRight_eq_div_pow]
  omega

theorem toNat_fieldX (w : Word) : (fieldX w).toNat = w.toNat / 256 % 16 := by
  simp [fieldX, Nat.shiftRight_eq_div_pow]

theorem toNat_fieldY (w : Word) : (fieldY w).toNat = w.toNat / 16 % 16 := by
  simp [fieldY, Nat.shiftRight_eq_div_pow]

theorem toNat_fieldN (w : Word) : (fieldN w).toNat = w.toNat % 16 := by
  simp [fieldN]

theorem toNat_fieldKk (w : Word) : (fieldKk w).toNat = w.toNat % 256 := by
  simp [fieldKk]

theorem toNat_fieldNnn (w : Word) : (fieldNnn w).toNat = w.toNat % 4096 := by
  simp [fieldNnn]

/-! ### The number of a concatenation -/

theorem toNat_op_nnn (o : Nibble) (a : Addr12) : BitVec.toNat (w := 16) (o ++ a) = o.toNat * 4096 + a.toNat := by
  have h := BitVec.toNat_append o a
  rw [← Nat.shiftLeft_add_eq_or_of_lt a.isLt, Nat.shiftLeft_eq] at h
  exact h

theorem toNat_op_x_kk (o x : Nibble) (k : Byte) :
    BitVec.toNat (w := 16) (o ++ x ++ k) = o.toNat * 4096 + x.toNat * 256 + k.toNat := by
  have h1 := BitVec.toNat_append o x
  have h2 := BitVec.toNat_append (o ++ x) k
  rw [← Nat.shiftLeft_add_eq_or_of_lt x.isLt, Nat.shiftLeft_eq] at h1
  rw [← Nat.shiftLeft_add_eq_or_of_lt k.isLt, Nat.shiftLeft_eq, h1] at h2
  exact h2.trans (by omega)

theorem toNat_op_x_y_n (o x y n : Nibble) :
    BitVec.toNat (w := 16) (o ++ x ++ y ++ n) = o.toNat * 4096 + x.toNat * 256 + y.toNat * 16 + n.toNat := by
  have h1 := BitVec.toNat_append o x
  have h2 := BitVec.toNat_append (o ++ x) y
  have h3 := BitVec.toNat_append (o ++ x ++ y) n
  rw [← Nat.shiftLeft_add_eq_or_of_lt x.isLt, Nat.shiftLeft_eq] at h1
  rw [← Nat.shiftLeft_add_eq_or_of_lt y.isLt, Nat.shiftLeft_eq, h1] at h2
  rw [← Nat.shiftLeft_add_eq_or_of_lt n.isLt, Nat.shiftLeft_eq, h2] at h3
  exact h3.trans (by omega)

theorem toNat_wordOfBytes (b0 b1 : Byte) : (wordOfBytes b0 b1).toNat = b0.toNat * 256 + b1.toNat := by
  have h := BitVec.toNat_append b0 b1
  rw [← Nat.shiftLeft_add_eq_or_of_lt b1.isLt, Nat.shiftLeft_eq] at h
  exact h

/-! ### The fields of a concatenation -/

@[simp] theorem fieldOp_op_nnn (o : Nibble) (a : Addr12) : fieldOp (o ++ a) = o := by
  apply BitVec.eq_of_toNat_eq; rw [toNat_fieldOp, toNat_op_nnn]; omega

@[simp] theorem fieldNnn_op_nnn (o : Nibble) (a : Addr12) : fieldNnn (o ++ a) = a := by
  apply BitVec.eq_of_toNat_eq; rw [toNat_fieldNnn, toNat_op_nnn]; omega

@[simp] theorem fieldOp_op_x_kk (o x : Nibble) (k : Byte) : fieldOp (o ++ x ++ k) = o := by
  apply BitVec.eq_of_toNat_eq; rw [toNat_fieldOp, toNat_op_x_kk]; omega

@[simp] theorem fieldX_op_x_kk (o x : Nibble) (k : Byte) : fieldX (o ++ x ++ k) = x := by
  apply BitVec.eq_of_toNat_eq; rw [toNat_fieldX, toNat_op_x_kk]; omega

@[simp] theorem fieldKk_op_x_kk (o x : Nibble) (k : Byte) : fieldKk (o ++ x ++ k) = k := by
  apply BitVec.eq_of_toNat_eq; rw [toNat_fieldKk, toNat_op_x_kk]; omega

@[simp] theorem fieldOp_op_x_y_n (o x y n : Nibble) : fieldOp (o ++ x ++ y ++ n) = o := by
  apply BitVec.eq_of_toNat_eq; rw [toNat_fieldOp, toNat_op_x_y_n]; omega

@[simp] theorem fieldX_op_x_y_n (o x y n : Nibble) : fieldX (o ++ x ++ y ++ n) = x := by
  apply BitVec.eq_of_toNat_eq; rw [toNat_fieldX, toNat_op_x_y_n]; omega

@[simp] theorem fieldY_op_x_y_n (o x y n : Nibble) : fieldY (o ++ x ++ y ++ n) = y := by
  apply BitVec.eq_of_toNat_eq; rw [toNat_fieldY, toNat_op_x_y_n]; omega

@[simp] theorem fieldN_op_x_y_n (o x y n : Nibble) : fieldN (o ++ x ++ y ++ n) = n := by
  apply BitVec.eq_of_toNat_eq; rw [toNat_fieldN, toNat_op_x_y_n]; omega

/-! ### The bytes of a word -/

@[simp] theorem wordOfBytes_high_low (w : Word) : wordOfBytes (highByte w) (lowByte w) = w := by
  apply BitVec.eq_of_toNat_eq
  have := w.isLt
  rw [toNat_wordOfBytes]
  simp [highByte, lowByte, Nat.shiftRight_eq_div_pow]
  omega

/-- Decoding the two bytes of a word is decoding the word. -/
theorem decode_bytes_of_word (w : Word) (rest : List Byte) :
    decode (highByte w :: lowByte w :: rest) =
      match decodeWord w with
      | some i => .ok (i, rest)
      | none => .error (.unrecognized w) := by
  cases h : decodeWord w <;> simp [decode, h]

/-- A table word of 16 bits is decoded as that word. -/
theorem decodeTableWord_eq (nbits w : Nat) : decodeTableWord nbits w = decodeWord (tableWord nbits w) := by
  unfold decodeTableWord
  rw [decode_bytes_of_word]
  cases decodeWord (tableWord nbits w) <;> rfl

end Sys2Proof
end

