-- ==== Sys2Proof/Laws/State.lean ====
section
/-! SUPPORT. What each named state update leaves in each field and in each read of the state: one lemma per field per
update, so that no proof unfolds a record update. -/

namespace Sys2Proof.Machine

/-! ### `State.setReg` -/

@[simp] theorem State.setReg_v (s : State) (r : Nibble) (b : Byte) : (s.setReg r b).v = s.v.set r.toNat b r.isLt := rfl
@[simp] theorem State.setReg_iReg (s : State) (r : Nibble) (b : Byte) : (s.setReg r b).iReg = s.iReg := rfl
@[simp] theorem State.setReg_pc (s : State) (r : Nibble) (b : Byte) : (s.setReg r b).pc = s.pc := rfl
@[simp] theorem State.setReg_sp (s : State) (r : Nibble) (b : Byte) : (s.setReg r b).sp = s.sp := rfl
@[simp] theorem State.setReg_stack (s : State) (r : Nibble) (b : Byte) : (s.setReg r b).stack = s.stack := rfl
@[simp] theorem State.setReg_dt (s : State) (r : Nibble) (b : Byte) : (s.setReg r b).dt = s.dt := rfl
@[simp] theorem State.setReg_st (s : State) (r : Nibble) (b : Byte) : (s.setReg r b).st = s.st := rfl
@[simp] theorem State.setReg_display (s : State) (r : Nibble) (b : Byte) : (s.setReg r b).display = s.display := rfl
@[simp] theorem State.setReg_mem (s : State) (r : Nibble) (b : Byte) : (s.setReg r b).mem = s.mem := rfl
@[simp] theorem State.setReg_keys (s : State) (r : Nibble) (b : Byte) : (s.setReg r b).keys = s.keys := rfl
@[simp] theorem State.setReg_image (s : State) (r : Nibble) (b : Byte) : (s.setReg r b).image = s.image := rfl
@[simp] theorem State.setReg_run (s : State) (r : Nibble) (b : Byte) : (s.setReg r b).run = s.run := rfl
@[simp] theorem State.setReg_pcSet (s : State) (r : Nibble) (b : Byte) : (s.setReg r b).pcSet = s.pcSet := rfl
@[simp] theorem State.setReg_pulse (s : State) (r : Nibble) (b : Byte) : (s.setReg r b).pulse = s.pulse := rfl
@[simp] theorem State.setReg_draws (s : State) (r : Nibble) (b : Byte) : (s.setReg r b).draws = s.draws := rfl
@[simp] theorem State.setReg_params (s : State) (r : Nibble) (b : Byte) : (s.setReg r b).params = s.params := rfl
@[simp] theorem State.setReg_slot (s : State) (r : Nibble) (b : Byte) (k : Fin 16) : (s.setReg r b).slot k = s.slot k := rfl
@[simp] theorem State.setReg_key (s : State) (r : Nibble) (b : Byte) (k : Nibble) : (s.setReg r b).key k = s.key k := rfl
@[simp] theorem State.setReg_byteAt (s : State) (r : Nibble) (b : Byte) (a : Nat) : (s.setReg r b).byteAt a = s.byteAt a := rfl

/-! ### `State.setFlagged` -/

@[simp] theorem State.setFlagged_iReg (s : State) (r : Nibble) (f b : Byte) : (s.setFlagged r f b).iReg = s.iReg := rfl
@[simp] theorem State.setFlagged_pc (s : State) (r : Nibble) (f b : Byte) : (s.setFlagged r f b).pc = s.pc := rfl
@[simp] theorem State.setFlagged_sp (s : State) (r : Nibble) (f b : Byte) : (s.setFlagged r f b).sp = s.sp := rfl
@[simp] theorem State.setFlagged_stack (s : State) (r : Nibble) (f b : Byte) : (s.setFlagged r f b).stack = s.stack := rfl
@[simp] theorem State.setFlagged_dt (s : State) (r : Nibble) (f b : Byte) : (s.setFlagged r f b).dt = s.dt := rfl
@[simp] theorem State.setFlagged_st (s : State) (r : Nibble) (f b : Byte) : (s.setFlagged r f b).st = s.st := rfl
@[simp] theorem State.setFlagged_display (s : State) (r : Nibble) (f b : Byte) : (s.setFlagged r f b).display = s.display := rfl
@[simp] theorem State.setFlagged_mem (s : State) (r : Nibble) (f b : Byte) : (s.setFlagged r f b).mem = s.mem := rfl
@[simp] theorem State.setFlagged_keys (s : State) (r : Nibble) (f b : Byte) : (s.setFlagged r f b).keys = s.keys := rfl
@[simp] theorem State.setFlagged_image (s : State) (r : Nibble) (f b : Byte) : (s.setFlagged r f b).image = s.image := rfl
@[simp] theorem State.setFlagged_run (s : State) (r : Nibble) (f b : Byte) : (s.setFlagged r f b).run = s.run := rfl
@[simp] theorem State.setFlagged_pcSet (s : State) (r : Nibble) (f b : Byte) : (s.setFlagged r f b).pcSet = s.pcSet := rfl
@[simp] theorem State.setFlagged_pulse (s : State) (r : Nibble) (f b : Byte) : (s.setFlagged r f b).pulse = s.pulse := rfl
@[simp] theorem State.setFlagged_draws (s : State) (r : Nibble) (f b : Byte) : (s.setFlagged r f b).draws = s.draws := rfl
@[simp] theorem State.setFlagged_params (s : State) (r : Nibble) (f b : Byte) : (s.setFlagged r f b).params = s.params := rfl
@[simp] theorem State.setFlagged_slot (s : State) (r : Nibble) (f b : Byte) (k : Fin 16) : (s.setFlagged r f b).slot k = s.slot k := rfl
@[simp] theorem State.setFlagged_key (s : State) (r : Nibble) (f b : Byte) (k : Nibble) : (s.setFlagged r f b).key k = s.key k := rfl
@[simp] theorem State.setFlagged_byteAt (s : State) (r : Nibble) (f b : Byte) (a : Nat) : (s.setFlagged r f b).byteAt a = s.byteAt a := rfl

/-! ### `State.setI` -/

@[simp] theorem State.setI_v (s : State) (w : Word) : (s.setI w).v = s.v := rfl
@[simp] theorem State.setI_iReg (s : State) (w : Word) : (s.setI w).iReg = w := rfl
@[simp] theorem State.setI_pc (s : State) (w : Word) : (s.setI w).pc = s.pc := rfl
@[simp] theorem State.setI_sp (s : State) (w : Word) : (s.setI w).sp = s.sp := rfl
@[simp] theorem State.setI_stack (s : State) (w : Word) : (s.setI w).stack = s.stack := rfl
@[simp] theorem State.setI_dt (s : State) (w : Word) : (s.setI w).dt = s.dt := rfl
@[simp] theorem State.setI_st (s : State) (w : Word) : (s.setI w).st = s.st := rfl
@[simp] theorem State.setI_display (s : State) (w : Word) : (s.setI w).display = s.display := rfl
@[simp] theorem State.setI_mem (s : State) (w : Word) : (s.setI w).mem = s.mem := rfl
@[simp] theorem State.setI_keys (s : State) (w : Word) : (s.setI w).keys = s.keys := rfl
@[simp] theorem State.setI_image (s : State) (w : Word) : (s.setI w).image = s.image := rfl
@[simp] theorem State.setI_run (s : State) (w : Word) : (s.setI w).run = s.run := rfl
@[simp] theorem State.setI_pcSet (s : State) (w : Word) : (s.setI w).pcSet = s.pcSet := rfl
@[simp] theorem State.setI_pulse (s : State) (w : Word) : (s.setI w).pulse = s.pulse := rfl
@[simp] theorem State.setI_draws (s : State) (w : Word) : (s.setI w).draws = s.draws := rfl
@[simp] theorem State.setI_params (s : State) (w : Word) : (s.setI w).params = s.params := rfl
@[simp] theorem State.setI_reg (s : State) (w : Word) (x : Nibble) : (s.setI w).reg x = s.reg x := rfl
@[simp] theorem State.setI_slot (s : State) (w : Word) (k : Fin 16) : (s.setI w).slot k = s.slot k := rfl
@[simp] theorem State.setI_key (s : State) (w : Word) (k : Nibble) : (s.setI w).key k = s.key k := rfl
@[simp] theorem State.setI_byteAt (s : State) (w : Word) (a : Nat) : (s.setI w).byteAt a = s.byteAt a := rfl

/-! ### `State.setDt` -/

@[simp] theorem State.setDt_v (s : State) (b : Byte) : (s.setDt b).v = s.v := rfl
@[simp] theorem State.setDt_iReg (s : State) (b : Byte) : (s.setDt b).iReg = s.iReg := rfl
@[simp] theorem State.setDt_pc (s : State) (b : Byte) : (s.setDt b).pc = s.pc := rfl
@[simp] theorem State.setDt_sp (s : State) (b : Byte) : (s.setDt b).sp = s.sp := rfl
@[simp] theorem State.setDt_stack (s : State) (b : Byte) : (s.setDt b).stack = s.stack := rfl
@[simp] theorem State.setDt_dt (s : State) (b : Byte) : (s.setDt b).dt = b := rfl
@[simp] theorem State.setDt_st (s : State) (b : Byte) : (s.setDt b).st = s.st := rfl
@[simp] theorem State.setDt_display (s : State) (b : Byte) : (s.setDt b).display = s.display := rfl
@[simp] theorem State.setDt_mem (s : State) (b : Byte) : (s.setDt b).mem = s.mem := rfl
@[simp] theorem State.setDt_keys (s : State) (b : Byte) : (s.setDt b).keys = s.keys := rfl
@[simp] theorem State.setDt_image (s : State) (b : Byte) : (s.setDt b).image = s.image := rfl
@[simp] theorem State.setDt_run (s : State) (b : Byte) : (s.setDt b).run = s.run := rfl
@[simp] theorem State.setDt_pcSet (s : State) (b : Byte) : (s.setDt b).pcSet = s.pcSet := rfl
@[simp] theorem State.setDt_pulse (s : State) (b : Byte) : (s.setDt b).pulse = s.pulse := rfl
@[simp] theorem State.setDt_draws (s : State) (b : Byte) : (s.setDt b).draws = s.draws := rfl
@[simp] theorem State.setDt_params (s : State) (b : Byte) : (s.setDt b).params = s.params := rfl
@[simp] theorem State.setDt_reg (s : State) (b : Byte) (x : Nibble) : (s.setDt b).reg x = s.reg x := rfl
@[simp] theorem State.setDt_slot (s : State) (b : Byte) (k : Fin 16) : (s.setDt b).slot k = s.slot k := rfl
@[simp] theorem State.setDt_key (s : State) (b : Byte) (k : Nibble) : (s.setDt b).key k = s.key k := rfl
@[simp] theorem State.setDt_byteAt (s : State) (b : Byte) (a : Nat) : (s.setDt b).byteAt a = s.byteAt a := rfl

/-! ### `State.setSt` -/

@[simp] theorem State.setSt_v (s : State) (b : Byte) : (s.setSt b).v = s.v := rfl
@[simp] theorem State.setSt_iReg (s : State) (b : Byte) : (s.setSt b).iReg = s.iReg := rfl
@[simp] theorem State.setSt_pc (s : State) (b : Byte) : (s.setSt b).pc = s.pc := rfl
@[simp] theorem State.setSt_sp (s : State) (b : Byte) : (s.setSt b).sp = s.sp := rfl
@[simp] theorem State.setSt_stack (s : State) (b : Byte) : (s.setSt b).stack = s.stack := rfl
@[simp] theorem State.setSt_dt (s : State) (b : Byte) : (s.setSt b).dt = s.dt := rfl
@[simp] theorem State.setSt_st (s : State) (b : Byte) : (s.setSt b).st = b := rfl
@[simp] theorem State.setSt_display (s : State) (b : Byte) : (s.setSt b).display = s.display := rfl
@[simp] theorem State.setSt_mem (s : State) (b : Byte) : (s.setSt b).mem = s.mem := rfl
@[simp] theorem State.setSt_keys (s : State) (b : Byte) : (s.setSt b).keys = s.keys := rfl
@[simp] theorem State.setSt_image (s : State) (b : Byte) : (s.setSt b).image = s.image := rfl
@[simp] theorem State.setSt_run (s : State) (b : Byte) : (s.setSt b).run = s.run := rfl
@[simp] theorem State.setSt_pcSet (s : State) (b : Byte) : (s.setSt b).pcSet = s.pcSet := rfl
@[simp] theorem State.setSt_pulse (s : State) (b : Byte) : (s.setSt b).pulse = s.pulse := rfl
@[simp] theorem State.setSt_draws (s : State) (b : Byte) : (s.setSt b).draws = s.draws := rfl
@[simp] theorem State.setSt_params (s : State) (b : Byte) : (s.setSt b).params = s.params := rfl
@[simp] theorem State.setSt_reg (s : State) (b : Byte) (x : Nibble) : (s.setSt b).reg x = s.reg x := rfl
@[simp] theorem State.setSt_slot (s : State) (b : Byte) (k : Fin 16) : (s.setSt b).slot k = s.slot k := rfl
@[simp] theorem State.setSt_key (s : State) (b : Byte) (k : Nibble) : (s.setSt b).key k = s.key k := rfl
@[simp] theorem State.setSt_byteAt (s : State) (b : Byte) (a : Nat) : (s.setSt b).byteAt a = s.byteAt a := rfl

/-! ### `State.putByte` -/

@[simp] theorem State.putByte_v (s : State) (p : Nat) (b : Byte) : (s.putByte p b).v = s.v := rfl
@[simp] theorem State.putByte_iReg (s : State) (p : Nat) (b : Byte) : (s.putByte p b).iReg = s.iReg := rfl
@[simp] theorem State.putByte_pc (s : State) (p : Nat) (b : Byte) : (s.putByte p b).pc = s.pc := rfl
@[simp] theorem State.putByte_sp (s : State) (p : Nat) (b : Byte) : (s.putByte p b).sp = s.sp := rfl
@[simp] theorem State.putByte_stack (s : State) (p : Nat) (b : Byte) : (s.putByte p b).stack = s.stack := rfl
@[simp] theorem State.putByte_dt (s : State) (p : Nat) (b : Byte) : (s.putByte p b).dt = s.dt := rfl
@[simp] theorem State.putByte_st (s : State) (p : Nat) (b : Byte) : (s.putByte p b).st = s.st := rfl
@[simp] theorem State.putByte_display (s : State) (p : Nat) (b : Byte) : (s.putByte p b).display = s.display := rfl
@[simp] theorem State.putByte_mem (s : State) (p : Nat) (b : Byte) : (s.putByte p b).mem = Memory.write s.params.font s.mem p b := rfl
@[simp] theorem State.putByte_keys (s : State) (p : Nat) (b : Byte) : (s.putByte p b).keys = s.keys := rfl
@[simp] theorem State.putByte_image (s : State) (p : Nat) (b : Byte) : (s.putByte p b).image = s.image := rfl
@[simp] theorem State.putByte_run (s : State) (p : Nat) (b : Byte) : (s.putByte p b).run = s.run := rfl
@[simp] theorem State.putByte_pcSet (s : State) (p : Nat) (b : Byte) : (s.putByte p b).pcSet = s.pcSet := rfl
@[simp] theorem State.putByte_pulse (s : State) (p : Nat) (b : Byte) : (s.putByte p b).pulse = s.pulse := rfl
@[simp] theorem State.putByte_draws (s : State) (p : Nat) (b : Byte) : (s.putByte p b).draws = s.draws := rfl
@[simp] theorem State.putByte_params (s : State) (p : Nat) (b : Byte) : (s.putByte p b).params = s.params := rfl
@[simp] theorem State.putByte_reg (s : State) (p : Nat) (b : Byte) (x : Nibble) : (s.putByte p b).reg x = s.reg x := rfl
@[simp] theorem State.putByte_slot (s : State) (p : Nat) (b : Byte) (k : Fin 16) : (s.putByte p b).slot k = s.slot k := rfl
@[simp] theorem State.putByte_key (s : State) (p : Nat) (b : Byte) (k : Nibble) : (s.putByte p b).key k = s.key k := rfl

/-! ### `State.jump` -/

@[simp] theorem State.jump_v (s : State) (w : Word) : (s.jump w).v = s.v := rfl
@[simp] theorem State.jump_iReg (s : State) (w : Word) : (s.jump w).iReg = s.iReg := rfl
@[simp] theorem State.jump_pc (s : State) (w : Word) : (s.jump w).pc = w := rfl
@[simp] theorem State.jump_sp (s : State) (w : Word) : (s.jump w).sp = s.sp := rfl
@[simp] theorem State.jump_stack (s : State) (w : Word) : (s.jump w).stack = s.stack := rfl
@[simp] theorem State.jump_dt (s : State) (w : Word) : (s.jump w).dt = s.dt := rfl
@[simp] theorem State.jump_st (s : State) (w : Word) : (s.jump w).st = s.st := rfl
@[simp] theorem State.jump_display (s : State) (w : Word) : (s.jump w).display = s.display := rfl
@[simp] theorem State.jump_mem (s : State) (w : Word) : (s.jump w).mem = s.mem := rfl
@[simp] theorem State.jump_keys (s : State) (w : Word) : (s.jump w).keys = s.keys := rfl
@[simp] theorem State.jump_image (s : State) (w : Word) : (s.jump w).image = s.image := rfl
@[simp] theorem State.jump_run (s : State) (w : Word) : (s.jump w).run = s.run := rfl
@[simp] theorem State.jump_pcSet (s : State) (w : Word) : (s.jump w).pcSet = true := rfl
@[simp] theorem State.jump_pulse (s : State) (w : Word) : (s.jump w).pulse = s.pulse := rfl
@[simp] theorem State.jump_draws (s : State) (w : Word) : (s.jump w).draws = s.draws := rfl
@[simp] theorem State.jump_params (s : State) (w : Word) : (s.jump w).params = s.params := rfl
@[simp] theorem State.jump_reg (s : State) (w : Word) (x : Nibble) : (s.jump w).reg x = s.reg x := rfl
@[simp] theorem State.jump_slot (s : State) (w : Word) (k : Fin 16) : (s.jump w).slot k = s.slot k := rfl
@[simp] theorem State.jump_key (s : State) (w : Word) (k : Nibble) : (s.jump w).key k = s.key k := rfl
@[simp] theorem State.jump_byteAt (s : State) (w : Word) (a : Nat) : (s.jump w).byteAt a = s.byteAt a := rfl

/-! ### `State.skipIf` -/

@[simp] theorem State.skipIf_v (s : State) (c : Bool) : (s.skipIf c).v = s.v := rfl
@[simp] theorem State.skipIf_iReg (s : State) (c : Bool) : (s.skipIf c).iReg = s.iReg := rfl
@[simp] theorem State.skipIf_pc (s : State) (c : Bool) : (s.skipIf c).pc = if c then s.pc + 4#16 else s.pc + 2#16 := rfl
@[simp] theorem State.skipIf_sp (s : State) (c : Bool) : (s.skipIf c).sp = s.sp := rfl
@[simp] theorem State.skipIf_stack (s : State) (c : Bool) : (s.skipIf c).stack = s.stack := rfl
@[simp] theorem State.skipIf_dt (s : State) (c : Bool) : (s.skipIf c).dt = s.dt := rfl
@[simp] theorem State.skipIf_st (s : State) (c : Bool) : (s.skipIf c).st = s.st := rfl
@[simp] theorem State.skipIf_display (s : State) (c : Bool) : (s.skipIf c).display = s.display := rfl
@[simp] theorem State.skipIf_mem (s : State) (c : Bool) : (s.skipIf c).mem = s.mem := rfl
@[simp] theorem State.skipIf_keys (s : State) (c : Bool) : (s.skipIf c).keys = s.keys := rfl
@[simp] theorem State.skipIf_image (s : State) (c : Bool) : (s.skipIf c).image = s.image := rfl
@[simp] theorem State.skipIf_run (s : State) (c : Bool) : (s.skipIf c).run = s.run := rfl
@[simp] theorem State.skipIf_pcSet (s : State) (c : Bool) : (s.skipIf c).pcSet = true := rfl
@[simp] theorem State.skipIf_pulse (s : State) (c : Bool) : (s.skipIf c).pulse = s.pulse := rfl
@[simp] theorem State.skipIf_draws (s : State) (c : Bool) : (s.skipIf c).draws = s.draws := rfl
@[simp] theorem State.skipIf_params (s : State) (c : Bool) : (s.skipIf c).params = s.params := rfl
@[simp] theorem State.skipIf_reg (s : State) (c : Bool) (x : Nibble) : (s.skipIf c).reg x = s.reg x := rfl
@[simp] theorem State.skipIf_slot (s : State) (c : Bool) (k : Fin 16) : (s.skipIf c).slot k = s.slot k := rfl
@[simp] theorem State.skipIf_key (s : State) (c : Bool) (k : Nibble) : (s.skipIf c).key k = s.key k := rfl
@[simp] theorem State.skipIf_byteAt (s : State) (c : Bool) (a : Nat) : (s.skipIf c).byteAt a = s.byteAt a := rfl

/-! ### `loadRandom` -/

@[simp] theorem loadRandom_v (s : State) (r : Nibble) (m b : Byte) : (loadRandom r m b s).v = s.v.set r.toNat (m &&& b) r.isLt := rfl
@[simp] theorem loadRandom_iReg (s : State) (r : Nibble) (m b : Byte) : (loadRandom r m b s).iReg = s.iReg := rfl
@[simp] theorem loadRandom_pc (s : State) (r : Nibble) (m b : Byte) : (loadRandom r m b s).pc = s.pc := rfl
@[simp] theorem loadRandom_sp (s : State) (r : Nibble) (m b : Byte) : (loadRandom r m b s).sp = s.sp := rfl
@[simp] theorem loadRandom_stack (s : State) (r : Nibble) (m b : Byte) : (loadRandom r m b s).stack = s.stack := rfl
@[simp] theorem loadRandom_dt (s : State) (r : Nibble) (m b : Byte) : (loadRandom r m b s).dt = s.dt := rfl
@[simp] theorem loadRandom_st (s : State) (r : Nibble) (m b : Byte) : (loadRandom r m b s).st = s.st := rfl
@[simp] theorem loadRandom_display (s : State) (r : Nibble) (m b : Byte) : (loadRandom r m b s).display = s.display := rfl
@[simp] theorem loadRandom_mem (s : State) (r : Nibble) (m b : Byte) : (loadRandom r m b s).mem = s.mem := rfl
@[simp] theorem loadRandom_keys (s : State) (r : Nibble) (m b : Byte) : (loadRandom r m b s).keys = s.keys := rfl
@[simp] theorem loadRandom_image (s : State) (r : Nibble) (m b : Byte) : (loadRandom r m b s).image = s.image := rfl
@[simp] theorem loadRandom_run (s : State) (r : Nibble) (m b : Byte) : (loadRandom r m b s).run = s.run := rfl
@[simp] theorem loadRandom_pcSet (s : State) (r : Nibble) (m b : Byte) : (loadRandom r m b s).pcSet = s.pcSet := rfl
@[simp] theorem loadRandom_pulse (s : State) (r : Nibble) (m b : Byte) : (loadRandom r m b s).pulse = s.pulse := rfl
@[simp] theorem loadRandom_draws (s : State) (r : Nibble) (m b : Byte) : (loadRandom r m b s).draws = s.draws + 1 := rfl
@[simp] theorem loadRandom_params (s : State) (r : Nibble) (m b : Byte) : (loadRandom r m b s).params = s.params := rfl
@[simp] theorem loadRandom_slot (s : State) (r : Nibble) (m b : Byte) (k : Fin 16) : (loadRandom r m b s).slot k = s.slot k := rfl
@[simp] theorem loadRandom_key (s : State) (r : Nibble) (m b : Byte) (k : Nibble) : (loadRandom r m b s).key k = s.key k := rfl
@[simp] theorem loadRandom_byteAt (s : State) (r : Nibble) (m b : Byte) (a : Nat) : (loadRandom r m b s).byteAt a = s.byteAt a := rfl

/-! ### `beginCycle` -/

@[simp] theorem beginCycle_v (s : State) : (beginCycle s).v = s.v := rfl
@[simp] theorem beginCycle_iReg (s : State) : (beginCycle s).iReg = s.iReg := rfl
@[simp] theorem beginCycle_pc (s : State) : (beginCycle s).pc = s.pc := rfl
@[simp] theorem beginCycle_sp (s : State) : (beginCycle s).sp = s.sp := rfl
@[simp] theorem beginCycle_stack (s : State) : (beginCycle s).stack = s.stack := rfl
@[simp] theorem beginCycle_dt (s : State) : (beginCycle s).dt = s.dt := rfl
@[simp] theorem beginCycle_st (s : State) : (beginCycle s).st = s.st := rfl
@[simp] theorem beginCycle_display (s : State) : (beginCycle s).display = s.display := rfl
@[simp] theorem beginCycle_mem (s : State) : (beginCycle s).mem = s.mem := rfl
@[simp] theorem beginCycle_keys (s : State) : (beginCycle s).keys = s.keys := rfl
@[simp] theorem beginCycle_image (s : State) : (beginCycle s).image = s.image := rfl
@[simp] theorem beginCycle_run (s : State) : (beginCycle s).run = s.run := rfl
@[simp] theorem beginCycle_pcSet (s : State) : (beginCycle s).pcSet = false := rfl
@[simp] theorem beginCycle_pulse (s : State) : (beginCycle s).pulse = none := rfl
@[simp] theorem beginCycle_draws (s : State) : (beginCycle s).draws = s.draws := rfl
@[simp] theorem beginCycle_params (s : State) : (beginCycle s).params = s.params := rfl
@[simp] theorem beginCycle_reg (s : State) (x : Nibble) : (beginCycle s).reg x = s.reg x := rfl
@[simp] theorem beginCycle_slot (s : State) (k : Fin 16) : (beginCycle s).slot k = s.slot k := rfl
@[simp] theorem beginCycle_key (s : State) (k : Nibble) : (beginCycle s).key k = s.key k := rfl
@[simp] theorem beginCycle_byteAt (s : State) (a : Nat) : (beginCycle s).byteAt a = s.byteAt a := rfl

/-! ### `tick` -/

@[simp] theorem tick_v (s : State) : (tick s).v = s.v := rfl
@[simp] theorem tick_iReg (s : State) : (tick s).iReg = s.iReg := rfl
@[simp] theorem tick_pc (s : State) : (tick s).pc = s.pc := rfl
@[simp] theorem tick_sp (s : State) : (tick s).sp = s.sp := rfl
@[simp] theorem tick_stack (s : State) : (tick s).stack = s.stack := rfl
@[simp] theorem tick_dt (s : State) : (tick s).dt = tickTimer s.dt := rfl
@[simp] theorem tick_st (s : State) : (tick s).st = tickTimer s.st := rfl
@[simp] theorem tick_display (s : State) : (tick s).display = s.display := rfl
@[simp] theorem tick_mem (s : State) : (tick s).mem = s.mem := rfl
@[simp] theorem tick_keys (s : State) : (tick s).keys = s.keys := rfl
@[simp] theorem tick_image (s : State) : (tick s).image = s.image := rfl
@[simp] theorem tick_run (s : State) : (tick s).run = s.run := rfl
@[simp] theorem tick_pcSet (s : State) : (tick s).pcSet = s.pcSet := rfl
@[simp] theorem tick_pulse (s : State) : (tick s).pulse = s.pulse := rfl
@[simp] theorem tick_draws (s : State) : (tick s).draws = s.draws := rfl
@[simp] theorem tick_params (s : State) : (tick s).params = s.params := rfl
@[simp] theorem tick_reg (s : State) (x : Nibble) : (tick s).reg x = s.reg x := rfl
@[simp] theorem tick_slot (s : State) (k : Fin 16) : (tick s).slot k = s.slot k := rfl
@[simp] theorem tick_key (s : State) (k : Nibble) : (tick s).key k = s.key k := rfl
@[simp] theorem tick_byteAt (s : State) (a : Nat) : (tick s).byteAt a = s.byteAt a := rfl

/-! ### `setKey` -/

@[simp] theorem setKey_v (s : State) (j : Nibble) (d : Bool) : (setKey s j d).v = s.v := rfl
@[simp] theorem setKey_iReg (s : State) (j : Nibble) (d : Bool) : (setKey s j d).iReg = s.iReg := rfl
@[simp] theorem setKey_pc (s : State) (j : Nibble) (d : Bool) : (setKey s j d).pc = s.pc := rfl
@[simp] theorem setKey_sp (s : State) (j : Nibble) (d : Bool) : (setKey s j d).sp = s.sp := rfl
@[simp] theorem setKey_stack (s : State) (j : Nibble) (d : Bool) : (setKey s j d).stack = s.stack := rfl
@[simp] theorem setKey_dt (s : State) (j : Nibble) (d : Bool) : (setKey s j d).dt = s.dt := rfl
@[simp] theorem setKey_st (s : State) (j : Nibble) (d : Bool) : (setKey s j d).st = s.st := rfl
@[simp] theorem setKey_display (s : State) (j : Nibble) (d : Bool) : (setKey s j d).display = s.display := rfl
@[simp] theorem setKey_mem (s : State) (j : Nibble) (d : Bool) : (setKey s j d).mem = s.mem := rfl
@[simp] theorem setKey_keys (s : State) (j : Nibble) (d : Bool) : (setKey s j d).keys = s.keys.set j.toNat d j.isLt := rfl
@[simp] theorem setKey_image (s : State) (j : Nibble) (d : Bool) : (setKey s j d).image = s.image := rfl
@[simp] theorem setKey_run (s : State) (j : Nibble) (d : Bool) : (setKey s j d).run = s.run := rfl
@[simp] theorem setKey_pcSet (s : State) (j : Nibble) (d : Bool) : (setKey s j d).pcSet = s.pcSet := rfl
@[simp] theorem setKey_pulse (s : State) (j : Nibble) (d : Bool) : (setKey s j d).pulse = s.pulse := rfl
@[simp] theorem setKey_draws (s : State) (j : Nibble) (d : Bool) : (setKey s j d).draws = s.draws := rfl
@[simp] theorem setKey_params (s : State) (j : Nibble) (d : Bool) : (setKey s j d).params = s.params := rfl
@[simp] theorem setKey_reg (s : State) (j : Nibble) (d : Bool) (x : Nibble) : (setKey s j d).reg x = s.reg x := rfl
@[simp] theorem setKey_slot (s : State) (j : Nibble) (d : Bool) (k : Fin 16) : (setKey s j d).slot k = s.slot k := rfl
@[simp] theorem setKey_byteAt (s : State) (j : Nibble) (d : Bool) (a : Nat) : (setKey s j d).byteAt a = s.byteAt a := rfl

/-! ### `advance` -/

@[simp] theorem advance_v (s : State) : (advance s).v = s.v := rfl
@[simp] theorem advance_iReg (s : State) : (advance s).iReg = s.iReg := rfl
@[simp] theorem advance_pc (s : State) : (advance s).pc = if s.pcSet then s.pc else s.pc + 2#16 := rfl
@[simp] theorem advance_sp (s : State) : (advance s).sp = s.sp := rfl
@[simp] theorem advance_stack (s : State) : (advance s).stack = s.stack := rfl
@[simp] theorem advance_dt (s : State) : (advance s).dt = s.dt := rfl
@[simp] theorem advance_st (s : State) : (advance s).st = s.st := rfl
@[simp] theorem advance_display (s : State) : (advance s).display = s.display := rfl
@[simp] theorem advance_mem (s : State) : (advance s).mem = s.mem := rfl
@[simp] theorem advance_keys (s : State) : (advance s).keys = s.keys := rfl
@[simp] theorem advance_image (s : State) : (advance s).image = s.image := rfl
@[simp] theorem advance_run (s : State) : (advance s).run = s.run := rfl
@[simp] theorem advance_pcSet (s : State) : (advance s).pcSet = s.pcSet := rfl
@[simp] theorem advance_pulse (s : State) : (advance s).pulse = s.pulse := rfl
@[simp] theorem advance_draws (s : State) : (advance s).draws = s.draws := rfl
@[simp] theorem advance_params (s : State) : (advance s).params = s.params := rfl
@[simp] theorem advance_reg (s : State) (x : Nibble) : (advance s).reg x = s.reg x := rfl
@[simp] theorem advance_slot (s : State) (k : Fin 16) : (advance s).slot k = s.slot k := rfl
@[simp] theorem advance_key (s : State) (k : Nibble) : (advance s).key k = s.key k := rfl
@[simp] theorem advance_byteAt (s : State) (a : Nat) : (advance s).byteAt a = s.byteAt a := rfl

/-! ### `endCycle` -/

@[simp] theorem endCycle_v (s : State) : (endCycle s).v = s.v := rfl
@[simp] theorem endCycle_iReg (s : State) : (endCycle s).iReg = s.iReg := rfl
@[simp] theorem endCycle_pc (s : State) : (endCycle s).pc = if s.pcSet then s.pc else s.pc + 2#16 := rfl
@[simp] theorem endCycle_sp (s : State) : (endCycle s).sp = s.sp := rfl
@[simp] theorem endCycle_stack (s : State) : (endCycle s).stack = s.stack := rfl
@[simp] theorem endCycle_dt (s : State) : (endCycle s).dt = tickTimer s.dt := rfl
@[simp] theorem endCycle_st (s : State) : (endCycle s).st = tickTimer s.st := rfl
@[simp] theorem endCycle_display (s : State) : (endCycle s).display = s.display := rfl
@[simp] theorem endCycle_mem (s : State) : (endCycle s).mem = s.mem := rfl
@[simp] theorem endCycle_keys (s : State) : (endCycle s).keys = s.keys := rfl
@[simp] theorem endCycle_image (s : State) : (endCycle s).image = s.image := rfl
@[simp] theorem endCycle_run (s : State) : (endCycle s).run = s.run := rfl
@[simp] theorem endCycle_pcSet (s : State) : (endCycle s).pcSet = false := rfl
@[simp] theorem endCycle_pulse (s : State) : (endCycle s).pulse = s.pulse := rfl
@[simp] theorem endCycle_draws (s : State) : (endCycle s).draws = s.draws := rfl
@[simp] theorem endCycle_params (s : State) : (endCycle s).params = s.params := rfl
@[simp] theorem endCycle_reg (s : State) (x : Nibble) : (endCycle s).reg x = s.reg x := rfl
@[simp] theorem endCycle_slot (s : State) (k : Fin 16) : (endCycle s).slot k = s.slot k := rfl
@[simp] theorem endCycle_key (s : State) (k : Nibble) : (endCycle s).key k = s.key k := rfl
@[simp] theorem endCycle_byteAt (s : State) (a : Nat) : (endCycle s).byteAt a = s.byteAt a := rfl

/-! ### Updates by lists -/

@[simp] theorem State.writeBytes_v (s : State) (p : Nat) (bs : List Byte) : (s.writeBytes p bs).v = s.v := by
  induction bs generalizing s p with
  | nil => rfl
  | cons c cs ih => simp [State.writeBytes, ih]
@[simp] theorem State.writeBytes_iReg (s : State) (p : Nat) (bs : List Byte) : (s.writeBytes p bs).iReg = s.iReg := by
  induction bs generalizing s p with
  | nil => rfl
  | cons c cs ih => simp [State.writeBytes, ih]
@[simp] theorem State.writeBytes_pc (s : State) (p : Nat) (bs : List Byte) : (s.writeBytes p bs).pc = s.pc := by
  induction bs generalizing s p with
  | nil => rfl
  | cons c cs ih => simp [State.writeBytes, ih]
@[simp] theorem State.writeBytes_sp (s : State) (p : Nat) (bs : List Byte) : (s.writeBytes p bs).sp = s.sp := by
  induction bs generalizing s p with
  | nil => rfl
  | cons c cs ih => simp [State.writeBytes, ih]
@[simp] theorem State.writeBytes_stack (s : State) (p : Nat) (bs : List Byte) : (s.writeBytes p bs).stack = s.stack := by
  induction bs generalizing s p with
  | nil => rfl
  | cons c cs ih => simp [State.writeBytes, ih]
@[simp] theorem State.writeBytes_dt (s : State) (p : Nat) (bs : List Byte) : (s.writeBytes p bs).dt = s.dt := by
  induction bs generalizing s p with
  | nil => rfl
  | cons c cs ih => simp [State.writeBytes, ih]
@[simp] theorem State.writeBytes_st (s : State) (p : Nat) (bs : List Byte) : (s.writeBytes p bs).st = s.st := by
  induction bs generalizing s p with
  | nil => rfl
  | cons c cs ih => simp [State.writeBytes, ih]
@[simp] theorem State.writeBytes_display (s : State) (p : Nat) (bs : List Byte) : (s.writeBytes p bs).display = s.display := by
  induction bs generalizing s p with
  | nil => rfl
  | cons c cs ih => simp [State.writeBytes, ih]
@[simp] theorem State.writeBytes_keys (s : State) (p : Nat) (bs : List Byte) : (s.writeBytes p bs).keys = s.keys := by
  induction bs generalizing s p with
  | nil => rfl
  | cons c cs ih => simp [State.writeBytes, ih]
@[simp] theorem State.writeBytes_image (s : State) (p : Nat) (bs : List Byte) : (s.writeBytes p bs).image = s.image := by
  induction bs generalizing s p with
  | nil => rfl
  | cons c cs ih => simp [State.writeBytes, ih]
@[simp] theorem State.writeBytes_run (s : State) (p : Nat) (bs : List Byte) : (s.writeBytes p bs).run = s.run := by
  induction bs generalizing s p with
  | nil => rfl
  | cons c cs ih => simp [State.writeBytes, ih]
@[simp] theorem State.writeBytes_pcSet (s : State) (p : Nat) (bs : List Byte) : (s.writeBytes p bs).pcSet = s.pcSet := by
  induction bs generalizing s p with
  | nil => rfl
  | cons c cs ih => simp [State.writeBytes, ih]
@[simp] theorem State.writeBytes_pulse (s : State) (p : Nat) (bs : List Byte) : (s.writeBytes p bs).pulse = s.pulse := by
  induction bs generalizing s p with
  | nil => rfl
  | cons c cs ih => simp [State.writeBytes, ih]
@[simp] theorem State.writeBytes_draws (s : State) (p : Nat) (bs : List Byte) : (s.writeBytes p bs).draws = s.draws := by
  induction bs generalizing s p with
  | nil => rfl
  | cons c cs ih => simp [State.writeBytes, ih]
@[simp] theorem State.writeBytes_params (s : State) (p : Nat) (bs : List Byte) : (s.writeBytes p bs).params = s.params := by
  induction bs generalizing s p with
  | nil => rfl
  | cons c cs ih => simp [State.writeBytes, ih]
@[simp] theorem State.writeBytes_reg (s : State) (p : Nat) (bs : List Byte) (x : Nibble) : (s.writeBytes p bs).reg x = s.reg x := by
  simp [State.reg]
@[simp] theorem State.writeBytes_slot (s : State) (p : Nat) (bs : List Byte) (k : Fin 16) : (s.writeBytes p bs).slot k = s.slot k := by
  simp [State.slot]
@[simp] theorem State.writeBytes_key (s : State) (p : Nat) (bs : List Byte) (k : Nibble) : (s.writeBytes p bs).key k = s.key k := by
  simp [State.key]

@[simp] theorem State.setRegsFrom_iReg (s : State) (p : Nat) (bs : List Byte) : (s.setRegsFrom p bs).iReg = s.iReg := by
  induction bs generalizing s p with
  | nil => rfl
  | cons c cs ih => simp [State.setRegsFrom, ih]
@[simp] theorem State.setRegsFrom_pc (s : State) (p : Nat) (bs : List Byte) : (s.setRegsFrom p bs).pc = s.pc := by
  induction bs generalizing s p with
  | nil => rfl
  | cons c cs ih => simp [State.setRegsFrom, ih]
@[simp] theorem State.setRegsFrom_sp (s : State) (p : Nat) (bs : List Byte) : (s.setRegsFrom p bs).sp = s.sp := by
  induction bs generalizing s p with
  | nil => rfl
  | cons c cs ih => simp [State.setRegsFrom, ih]
@[simp] theorem State.setRegsFrom_stack (s : State) (p : Nat) (bs : List Byte) : (s.setRegsFrom p bs).stack = s.stack := by
  induction bs generalizing s p with
  | nil => rfl
  | cons c cs ih => simp [State.setRegsFrom, ih]
@[simp] theorem State.setRegsFrom_dt (s : State) (p : Nat) (bs : List Byte) : (s.setRegsFrom p bs).dt = s.dt := by
  induction bs generalizing s p with
  | nil => rfl
  | cons c cs ih => simp [State.setRegsFrom, ih]
@[simp] theorem State.setRegsFrom_st (s : State) (p : Nat) (bs : List Byte) : (s.setRegsFrom p bs).st = s.st := by
  induction bs generalizing s p with
  | nil => rfl
  | cons c cs ih => simp [State.setRegsFrom, ih]
@[simp] theorem State.setRegsFrom_display (s : State) (p : Nat) (bs : List Byte) : (s.setRegsFrom p bs).display = s.display := by
  induction bs generalizing s p with
  | nil => rfl
  | cons c cs ih => simp [State.setRegsFrom, ih]
@[simp] theorem State.setRegsFrom_mem (s : State) (p : Nat) (bs : List Byte) : (s.setRegsFrom p bs).mem = s.mem := by
  induction bs generalizing s p with
  | nil => rfl
  | cons c cs ih => simp [State.setRegsFrom, ih]
@[simp] theorem State.setRegsFrom_keys (s : State) (p : Nat) (bs : List Byte) : (s.setRegsFrom p bs).keys = s.keys := by
  induction bs generalizing s p with
  | nil => rfl
  | cons c cs ih => simp [State.setRegsFrom, ih]
@[simp] theorem State.setRegsFrom_image (s : State) (p : Nat) (bs : List Byte) : (s.setRegsFrom p bs).image = s.image := by
  induction bs generalizing s p with
  | nil => rfl
  | cons c cs ih => simp [State.setRegsFrom, ih]
@[simp] theorem State.setRegsFrom_run (s : State) (p : Nat) (bs : List Byte) : (s.setRegsFrom p bs).run = s.run := by
  induction bs generalizing s p with
  | nil => rfl
  | cons c cs ih => simp [State.setRegsFrom, ih]
@[simp] theorem State.setRegsFrom_pcSet (s : State) (p : Nat) (bs : List Byte) : (s.setRegsFrom p bs).pcSet = s.pcSet := by
  induction bs generalizing s p with
  | nil => rfl
  | cons c cs ih => simp [State.setRegsFrom, ih]
@[simp] theorem State.setRegsFrom_pulse (s : State) (p : Nat) (bs : List Byte) : (s.setRegsFrom p bs).pulse = s.pulse := by
  induction bs generalizing s p with
  | nil => rfl
  | cons c cs ih => simp [State.setRegsFrom, ih]
@[simp] theorem State.setRegsFrom_draws (s : State) (p : Nat) (bs : List Byte) : (s.setRegsFrom p bs).draws = s.draws := by
  induction bs generalizing s p with
  | nil => rfl
  | cons c cs ih => simp [State.setRegsFrom, ih]
@[simp] theorem State.setRegsFrom_params (s : State) (p : Nat) (bs : List Byte) : (s.setRegsFrom p bs).params = s.params := by
  induction bs generalizing s p with
  | nil => rfl
  | cons c cs ih => simp [State.setRegsFrom, ih]
@[simp] theorem State.setRegsFrom_slot (s : State) (p : Nat) (bs : List Byte) (k : Fin 16) : (s.setRegsFrom p bs).slot k = s.slot k := by
  simp [State.slot]
@[simp] theorem State.setRegsFrom_key (s : State) (p : Nat) (bs : List Byte) (k : Nibble) : (s.setRegsFrom p bs).key k = s.key k := by
  simp [State.key]
@[simp] theorem State.setRegsFrom_byteAt (s : State) (p : Nat) (bs : List Byte) (a : Nat) : (s.setRegsFrom p bs).byteAt a = s.byteAt a := by
  simp [State.byteAt]

end Sys2Proof.Machine
end

