-- ==== Sys2Proof/Laws/Memory.lean ====
section
/-! SUPPORT. The laws of memory: read after write, writes elsewhere, and the canonical form. None assumes the memory
canonical unless it says so. -/

namespace Sys2Proof.Machine

variable {font : Vector Byte 80}

/-! ### One byte -/

theorem Memory.read_of_not_listed {m : Memory} {a : Nat} (h : ∀ p ∈ m, p.1 ≠ a) :
    Memory.read font m a = Memory.unlisted font a := by
  induction m with
  | nil => rfl
  | cons p m ih =>
    have hp : a ≠ p.1 := fun e => h p (by simp) e.symm
    simp [Memory.read, hp, ih fun q hq => h q (by simp [hq])]

theorem Memory.read_erase_self (m : Memory) (a : Nat) :
    Memory.read font (Memory.erase a m) a = Memory.unlisted font a :=
  Memory.read_of_not_listed (by simp [Memory.erase])

theorem Memory.read_erase_other (m : Memory) {a b : Nat} (h : b ≠ a) :
    Memory.read font (Memory.erase a m) b = Memory.read font m b := by
  induction m with
  | nil => rfl
  | cons p m ih =>
    by_cases hp : p.1 = a
    · have : b ≠ p.1 := by omega
      simpa [Memory.erase, Memory.read, hp, h] using ih
    · by_cases hb : b = p.1
      · simp [Memory.erase, Memory.read, hp, hb]
      · simpa [Memory.erase, Memory.read, hp, hb] using ih

theorem Memory.read_insert_self {m : Memory} {a : Nat} (v : Byte) (h : ∀ p ∈ m, p.1 ≠ a) :
    Memory.read font (Memory.insert a v m) a = v := by
  induction m with
  | nil => simp [Memory.insert, Memory.read]
  | cons p m ih =>
    have hp : a ≠ p.1 := fun e => h p (by simp) e.symm
    by_cases hl : a < p.1
    · simp [Memory.insert, Memory.read, hl]
    · simp [Memory.insert, Memory.read, hl, hp, ih fun q hq => h q (by simp [hq])]

theorem Memory.read_insert_other (m : Memory) {a b : Nat} (v : Byte) (h : b ≠ a) :
    Memory.read font (Memory.insert a v m) b = Memory.read font m b := by
  induction m with
  | nil => simp [Memory.insert, Memory.read, h]
  | cons p m ih =>
    by_cases hl : a < p.1
    · simp [Memory.insert, Memory.read, hl, h]
    · simp [Memory.insert, Memory.read, hl, ih]

theorem Memory.read_write_same (m : Memory) (a : Nat) (v : Byte) :
    Memory.read font (Memory.write font m a v) a = v := by
  unfold Memory.write
  split
  · rename_i h; rw [Memory.read_erase_self, h]
  · exact Memory.read_insert_self v (by simp [Memory.erase])

theorem Memory.read_write_other (m : Memory) {a b : Nat} (v : Byte) (h : b ≠ a) :
    Memory.read font (Memory.write font m a v) b = Memory.read font m b := by
  unfold Memory.write
  split
  · exact Memory.read_erase_other m h
  · rw [Memory.read_insert_other _ v h, Memory.read_erase_other m h]

/-! ### The canonical form -/

theorem Memory.wf_nil : Memory.wf font [] := by simp [Memory.wf]

theorem Memory.wf_erase {m : Memory} (a : Nat) (h : Memory.wf font m) : Memory.wf font (Memory.erase a m) :=
  ⟨h.1.sublist List.filter_sublist, fun p hp => h.2 p (List.mem_of_mem_filter hp)⟩

theorem Memory.mem_insert {m : Memory} {a : Nat} {v : Byte} {p : Host.Cell} (h : p ∈ Memory.insert a v m) :
    p = (a, v) ∨ p ∈ m := by
  induction m with
  | nil => simpa [Memory.insert] using h
  | cons q m ih =>
    by_cases hl : a < q.1
    · simpa [Memory.insert, hl] using h
    · simp only [Memory.insert, hl, if_false, List.mem_cons] at h
      rcases h with h | h
      · simp [h]
      · rcases ih h with h | h <;> simp [h]

theorem Memory.sorted_insert {m : Memory} {a : Nat} {v : Byte} (hs : m.Pairwise fun p q => p.1 < q.1)
    (ha : ∀ p ∈ m, p.1 ≠ a) : (Memory.insert a v m).Pairwise fun p q => p.1 < q.1 := by
  induction m with
  | nil => simp [Memory.insert]
  | cons q m ih =>
    obtain ⟨hq, hm⟩ := List.pairwise_cons.mp hs
    by_cases hl : a < q.1
    · simp only [Memory.insert, hl, if_true, List.pairwise_cons]
      refine ⟨fun p hp => ?_, hq, hm⟩
      rcases List.mem_cons.mp hp with h | h
      · simpa [h] using hl
      · exact Nat.lt_trans hl (hq p h)
    · simp only [Memory.insert, hl, if_false, List.pairwise_cons]
      refine ⟨fun p hp => ?_, ih hm fun p hp => ha p (by simp [hp])⟩
      rcases Memory.mem_insert hp with h | h
      · have := ha q (by simp)
        simp only [h]; omega
      · exact hq p h

/-- A write inside the address space keeps the canonical form. -/
theorem Memory.wf_write {m : Memory} {a : Nat} (v : Byte) (ha : a < memSize) (h : Memory.wf font m) :
    Memory.wf font (Memory.write font m a v) := by
  unfold Memory.write
  split
  · exact Memory.wf_erase a h
  · rename_i hv
    have he := Memory.wf_erase a h
    refine ⟨Memory.sorted_insert he.1 (by simp [Memory.erase]), fun p hp => ?_⟩
    rcases Memory.mem_insert hp with rfl | hp
    · exact ⟨ha, hv⟩
    · exact he.2 p hp

/-! ### Bytes of a state -/

@[simp] theorem State.byteAt_putByte_same (s : State) (a : Nat) (v : Byte) : (s.putByte a v).byteAt a = v :=
  Memory.read_write_same _ _ _

theorem State.byteAt_putByte_other (s : State) {a b : Nat} (v : Byte) (h : b ≠ a) :
    (s.putByte a v).byteAt b = s.byteAt b :=
  Memory.read_write_other _ _ h

/-- Storing bytes leaves every address outside them alone. -/
theorem State.byteAt_writeBytes_outside (s : State) {base a : Nat} {bs : List Byte}
    (h : a < base ∨ base + bs.length ≤ a) : (s.writeBytes base bs).byteAt a = s.byteAt a := by
  induction bs generalizing s base with
  | nil => rfl
  | cons b bs ih =>
    simp only [List.length_cons] at h
    rw [State.writeBytes, ih _ (by omega), State.byteAt_putByte_other _ _ (by omega)]

/-- Storing bytes leaves byte `k` of them at `base + k`. -/
theorem State.byteAt_writeBytes_inside (s : State) (base : Nat) {bs : List Byte} {k : Nat} (h : k < bs.length) :
    (s.writeBytes base bs).byteAt (base + k) = bs[k] := by
  induction bs generalizing s base k with
  | nil => simp at h
  | cons b bs ih =>
    cases k with
    | zero =>
      rw [State.writeBytes, Nat.add_zero, State.byteAt_writeBytes_outside _ (Or.inl (by omega))]
      simp
    | succ k =>
      have := ih (s.putByte base b) (base + 1) (k := k) (by simpa using h)
      simpa [State.writeBytes, Nat.add_assoc, Nat.add_comm 1 k] using this

/-- Storing bytes inside the address space keeps memory canonical. -/
theorem State.canonical_writeBytes {s : State} {base : Nat} {bs : List Byte} (h : base + bs.length ≤ memSize)
    (hs : Memory.wf s.params.font s.mem) :
    Memory.wf s.params.font (s.writeBytes base bs).mem := by
  induction bs generalizing s base with
  | nil => exact hs
  | cons b bs ih =>
    simp only [List.length_cons] at h
    exact ih (s := s.putByte base b) (by omega) (Memory.wf_write b (by omega) hs)

@[simp] theorem State.length_readBytes (s : State) (base len : Nat) : (s.readBytes base len).length = len := by
  induction len generalizing base with
  | zero => rfl
  | succ len ih => simp [State.readBytes, ih]

theorem State.getElem_readBytes (s : State) {base len k : Nat} (h : k < (s.readBytes base len).length) :
    (s.readBytes base len)[k] = s.byteAt (base + k) := by
  induction len generalizing base k with
  | zero => simp [State.readBytes] at h
  | succ len ih =>
    cases k with
    | zero => simp [State.readBytes]
    | succ k => simp [State.readBytes, ih, Nat.add_assoc, Nat.add_comm 1 k]

/-- What a state reads at an address depends on its memory and font alone. -/
theorem State.byteAt_congr {s t : State} (hm : t.mem = s.mem) (hp : t.params = s.params) (a : Nat) :
    t.byteAt a = s.byteAt a := by
  simp [State.byteAt, hm, hp]

end Sys2Proof.Machine
end

