-- ==== Sys2Proof/Laws/Registers.lean ====
section
/-! SUPPORT. The laws of the register file, of the key flags and of the stack slots. -/

namespace Sys2Proof.Machine

@[simp] theorem State.reg_setReg_same (s : State) (x : Nibble) (b : Byte) : (s.setReg x b).reg x = b := by
  simp [State.reg, State.setReg]

theorem State.reg_setReg_other (s : State) {x y : Nibble} (b : Byte) (h : y ≠ x) : (s.setReg x b).reg y = s.reg y := by
  have hn : x.toNat ≠ y.toNat := fun e => h (BitVec.eq_of_toNat_eq e.symm)
  exact Vector.getElem_set_ne x.isLt y.isLt hn

/-- The result is written last (42_arithmetic_logic.md R110). -/
@[simp] theorem State.reg_setFlagged_result (s : State) (x : Nibble) (f b : Byte) : (s.setFlagged x f b).reg x = b :=
  State.reg_setReg_same _ _ _

theorem State.reg_setFlagged_flag (s : State) {x : Nibble} (f b : Byte) (h : x ≠ vf) :
    (s.setFlagged x f b).reg vf = f := by
  rw [State.setFlagged, State.reg_setReg_other _ _ (Ne.symm h), State.reg_setReg_same]

theorem State.reg_setFlagged_other (s : State) {x y : Nibble} (f b : Byte) (hx : y ≠ x) (hf : y ≠ vf) :
    (s.setFlagged x f b).reg y = s.reg y := by
  rw [State.setFlagged, State.reg_setReg_other _ _ hx, State.reg_setReg_other _ _ hf]

/-- Register `y` after a list is written into consecutive registers from number `k`. -/
theorem State.reg_setRegsFrom (s : State) {k : Nat} {bs : List Byte} (h : k + bs.length ≤ 16) (y : Nibble) :
    (s.setRegsFrom k bs).reg y = if hy : k ≤ y.toNat ∧ y.toNat < k + bs.length then bs[y.toNat - k] else s.reg y := by
  induction bs generalizing s k with
  | nil => simp [State.setRegsFrom]
  | cons b bs ih =>
    simp only [List.length_cons] at h ⊢
    rw [State.setRegsFrom, ih _ (by omega)]
    have hk : (BitVec.ofNat 4 k).toNat = k := by simp; omega
    by_cases h1 : k + 1 ≤ y.toNat ∧ y.toNat < k + 1 + bs.length
    · rw [dif_pos h1, dif_pos (by omega)]
      have e : y.toNat - k = (y.toNat - (k + 1)) + 1 := by omega
      simp only [e, List.getElem_cons_succ]
    · rw [dif_neg h1]
      by_cases h2 : y.toNat = k
      · have hy : y = BitVec.ofNat 4 k := BitVec.eq_of_toNat_eq (by rw [hk, h2])
        rw [dif_pos (by omega)]
        simp only [h2, Nat.sub_self, List.getElem_cons_zero]
        rw [hy, State.reg_setReg_same]
      · rw [dif_neg (by omega), State.reg_setReg_other]
        intro e
        exact h2 (by rw [e, hk])

@[simp] theorem State.length_firstRegs (s : State) (x : Nibble) : (s.firstRegs (regCount x)).length = regCount x := by
  have := x.isLt
  simp only [State.firstRegs, regCount, List.length_take, Vector.length_toList]
  omega

/-- The registers that `Fx55` stores are `x + 1`. -/
theorem State.length_firstRegs_succ (s : State) (x : Nibble) :
    (s.firstRegs (x.toNat + 1)).length = x.toNat + 1 := s.length_firstRegs x

theorem State.getElem_firstRegs (s : State) {n k : Nat} (h : k < (s.firstRegs n).length) (hk : k < 16) :
    (s.firstRegs n)[k] = s.reg (BitVec.ofNat 4 k) := by
  have e : (BitVec.ofNat 4 k).toNat = k := by simp; omega
  simp [State.firstRegs, State.reg, e]

/-- No key is down after `Fx0A` clears the flags. -/
@[simp] theorem allKeysUp_get (k : Nibble) : allKeysUp[k.toNat]'k.isLt = false := by
  simp [allKeysUp]

end Sys2Proof.Machine
end

