-- ==== Sys2Proof/Laws/Ops.lean ====
section
/-! SUPPORT. What each shared operation can do, once: callers cite these and do not unfold the operations. -/

namespace Sys2Proof.Machine

/-! ### Operations that may fault -/

theorem guardRange_ok {base len : Nat} (body : Result) (h : len = 0 ∨ base + len ≤ memSize) :
    guardRange base len body = body := if_pos h

theorem guardRange_fault {base len : Nat} (body : Result) (h0 : 0 < len) (h : memSize < base + len) :
    guardRange base len body = .fault (.memoryOutOfRange (max base memSize)) :=
  if_neg (by omega)

/-- If a guarded body answers a next state, the range exists and the body answered it. -/
theorem guardRange_next {base len : Nat} {body : Result} {t : State} (h : guardRange base len body = .next t) :
    (len = 0 ∨ base + len ≤ memSize) ∧ body = .next t := by
  unfold guardRange at h
  split at h
  · exact ⟨‹_›, h⟩
  · cases h

theorem pushPc_ok {s : State} (k : State → Result) (h : s.sp.val < 15) :
    pushPc s k = k { s with sp := ⟨s.sp.val + 1, by omega⟩, stack := s.stack.set (s.sp.val + 1) s.pc (by omega) } :=
  dif_pos h

theorem pushPc_fault {s : State} (k : State → Result) (h : s.sp.val = 15) :
    pushPc s k = .fault (.stackOverflow 15) := by
  unfold pushPc
  rw [dif_neg (by omega), h]
  rfl

theorem popPc_ok {s : State} (k : Word → State → Result) (h : 0 < s.sp.val) :
    popPc s k = k (s.slot s.sp) { s with sp := ⟨s.sp.val - 1, by omega⟩ } :=
  if_pos h

theorem popPc_fault {s : State} (k : Word → State → Result) (h : s.sp.val = 0) :
    popPc s k = .fault (.stackUnderflow 0) := by
  unfold popPc
  rw [if_neg (by omega), h]
  rfl

theorem withKeyDigit_ok {b : Byte} (k : Nibble → Result) (h : b.toNat ≤ 15) : withKeyDigit b k = k (b.setWidth 4) :=
  if_pos h

theorem withKeyDigit_fault {b : Byte} (k : Nibble → Result) (h : 15 < b.toNat) :
    withKeyDigit b k = .fault (.keyOutOfRange b) :=
  if_neg (by omega)

theorem memRead_ok {s : State} {a : Nat} (h : a < memSize) : memRead s a = .ok (s.byteAt a) := if_pos h

theorem memRead_fault {s : State} {a : Nat} (h : memSize ≤ a) : memRead s a = .error (.memoryOutOfRange a) :=
  if_neg (by omega)

/-! ### Keys -/

theorem mem_keyDigits (k : Nibble) : k ∈ keyDigits := by revert k; decide

/-- No key is selected exactly when no key is down. -/
theorem lowestKey_eq_none {keys : Vector Bool 16} :
    lowestKey keys = none ↔ ∀ k : Nibble, keys[k.toNat]'k.isLt = false := by
  unfold lowestKey
  rw [List.find?_eq_none]
  constructor
  · intro h k
    simpa using h k (mem_keyDigits k)
  · intro h k _
    simp [h k]

theorem lowestKey_down {keys : Vector Bool 16} {k : Nibble} (h : lowestKey keys = some k) :
    keys[k.toNat]'k.isLt = true :=
  List.find?_some (p := fun k : Nibble => keys[k.toNat]'k.isLt) h

/-- The selected key of the default rule is the lowest one down. -/
theorem lowestKey_le {keys : Vector Bool 16} {low j : Nibble} (h : lowestKey keys = some low)
    (hj : keys[j.toNat]'j.isLt = true) : low.toNat ≤ j.toNat := by
  unfold lowestKey at h
  rw [List.find?_eq_some_iff_append] at h
  obtain ⟨-, before, rest, e, hup⟩ := h
  have sorted : keyDigits.Pairwise fun a b => a.toNat < b.toNat := by decide
  have hm := mem_keyDigits j
  rw [e] at hm sorted
  rcases List.mem_append.mp hm with hm | hm
  · have := hup j hm
    simp [hj] at this
  · rcases List.mem_cons.mp hm with rfl | hm
    · exact le_rfl
    · exact le_of_lt ((List.pairwise_cons.mp (List.pairwise_append.mp sorted).2.1).1 j hm)

theorem selectKey_eq_none {p : Params} {keys : Vector Bool 16} :
    selectKey p keys = none ↔ ∀ k : Nibble, keys[k.toNat]'k.isLt = false := by
  rw [← lowestKey_eq_none]
  unfold selectKey
  cases lowestKey keys with
  | none => simp
  | some low => dsimp only; split <;> simp; split <;> simp

/-- The selected key is down. -/
theorem selectKey_down {p : Params} {keys : Vector Bool 16} {k : Nibble} (h : selectKey p keys = some k) :
    keys[k.toNat]'k.isLt = true := by
  unfold selectKey at h
  cases hl : lowestKey keys with
  | none => simp [hl] at h
  | some low =>
    have hd := lowestKey_down hl
    simp only [hl] at h
    split at h
    · simpa [← Option.some.inj h] using hd
    · split at h
      · rw [← Option.some.inj h]; assumption
      · simpa [← Option.some.inj h] using hd

/-! ### The display -/

@[simp] theorem Display.pixel_setPixel_same (d : Display) (r : Fin 32) (c : Fin 64) (b : Bool) :
    (d.setPixel r c b).pixel r c = b := by
  simp [Display.pixel, Display.setPixel]

theorem Display.pixel_setPixel_other (d : Display) {r r' : Fin 32} {c c' : Fin 64} (b : Bool)
    (h : r' ≠ r ∨ c' ≠ c) : (d.setPixel r c b).pixel r' c' = d.pixel r' c' := by
  unfold Display.pixel Display.setPixel
  by_cases hr : r' = r
  · subst hr
    have hc : c.val ≠ c'.val := fun e => by rcases h with h | h; exacts [h rfl, h (Fin.ext e.symm)]
    simp [hc]
  · have hv : r.val ≠ r'.val := fun e => hr (Fin.ext e.symm)
    simp [hv]

@[simp] theorem Display.pixel_clear (r : Fin 32) (c : Fin 64) : Display.clear.pixel r c = false := by
  simp [Display.pixel, Display.clear]

/-- Two displays with the same pixels are the same display. -/
theorem Display.ext_pixel {d e : Display} (h : ∀ r c, d.pixel r c = e.pixel r c) : d = e := by
  ext i hi j hj
  exact h ⟨i, hi⟩ ⟨j, hj⟩

/-- A sprite bit changes the one pixel it lands on, if any. -/
theorem pixel_drawBit (p : ColWrap) (col0 row0 : Byte) (r c : Nat) (bit : Bool) (acc : Display × Bool)
    (tr : Fin 32) (tc : Fin 64) :
    (drawBit p col0 row0 r c bit acc).1.pixel tr tc =
      (acc.1.pixel tr tc ^^ (decide (targetRow row0 r = tr ∧ targetCol p col0 c = some tc) && bit)) := by
  unfold drawBit
  cases hc : targetCol p col0 c with
  | none => simp
  | some c' =>
    by_cases h : targetRow row0 r = tr ∧ c' = tc
    · obtain ⟨rfl, rfl⟩ := h
      simp
    · have h' : tr ≠ targetRow row0 r ∨ tc ≠ c' := by
        by_contra hn
        exact h ⟨by tauto, by tauto⟩
      simp only [Display.pixel_setPixel_other _ _ h', Option.some.injEq, h, decide_false, Bool.false_and, Bool.xor_false]

/-- The collision flag only ever goes from false to true, and does when the bit is 1 and the pixel is on. -/
theorem hit_drawBit (p : ColWrap) (col0 row0 : Byte) (r c : Nat) (bit : Bool) (acc : Display × Bool) :
    (drawBit p col0 row0 r c bit acc).2 =
      (acc.2 || (targetCol p col0 c).any fun tc => acc.1.pixel (targetRow row0 r) tc && bit) := by
  unfold drawBit
  cases targetCol p col0 c <;> simp

end Sys2Proof.Machine
end

