-- ==== Sys2Proof/Laws/Display.lean ====
section
/-! SUPPORT. What a draw does to the display, pixel by pixel, and when it reports a collision: `drawSprite_spec`, which
proofs about `Dxyn` cite instead of unfolding the loops. -/

namespace Sys2Proof.Machine

/-- One sprite bit: its row and column offset and its value. -/
abbrev SpriteBit := Nat × Nat × Bool

/-- The bits of sprite rows `r`, `r + 1`, … in drawing order. -/
def spriteBits : Nat → List Byte → List SpriteBit
  | _, [] => []
  | r, b :: bs => [0, 1, 2, 3, 4, 5, 6, 7].map (fun c => (r, c, b.getLsbD (7 - c))) ++ spriteBits (r + 1) bs

/-- The pixel a sprite bit lands on, if any. -/
def bitTarget (p : ColWrap) (col0 row0 : Byte) (o : SpriteBit) : Option (Fin 32 × Fin 64) :=
  (targetCol p col0 o.2.1).map fun tc => (targetRow row0 o.1, tc)

/-- A draw is its bits drawn one after the other. -/
theorem drawRows_eq_foldl (p : ColWrap) (col0 row0 : Byte) (r : Nat) (bs : List Byte) (acc : Display × Bool) :
    drawRows p col0 row0 r bs acc =
      (spriteBits r bs).foldl (fun acc o => drawBit p col0 row0 o.1 o.2.1 o.2.2 acc) acc := by
  induction bs generalizing r acc with
  | nil => rfl
  | cons b bs ih => rw [drawRows, ih, spriteBits, List.foldl_append, drawRow, List.foldl_map]

/-- What the bits of a sprite are. -/
theorem mem_spriteBits {r : Nat} {bs : List Byte} {o : SpriteBit} :
    o ∈ spriteBits r bs ↔
      ∃ k, ∃ h : k < bs.length, o.1 = r + k ∧ o.2.1 < 8 ∧ o.2.2 = bs[k].getLsbD (7 - o.2.1) := by
  induction bs generalizing r with
  | nil => simp [spriteBits]
  | cons b bs ih =>
    obtain ⟨a, c, v⟩ := o
    rw [spriteBits, List.mem_append, ih]
    constructor
    · rintro (h | ⟨k, hk, h1, h2, h3⟩)
      · simp only [List.mem_map, Prod.mk.injEq] at h
        obtain ⟨c', hc, rfl, rfl, rfl⟩ := h
        exact ⟨0, by simp, by simp, by simp at hc ⊢; omega, rfl⟩
      · exact ⟨k + 1, by simpa using hk, by omega, h2, by simpa using h3⟩
    · rintro ⟨k, hk, h1, h2, h3⟩
      cases k with
      | zero =>
        left
        simp only at h1 h2 h3
        subst h1 h3
        simp only [List.mem_map, Prod.mk.injEq]
        exact ⟨c, by simp; omega, by simp⟩
      | succ k => exact .inr ⟨k, by simpa using hk, by omega, h2, by simpa using h3⟩

/-- Eight neighbouring columns land on different columns. -/
theorem targetCol_inj {p : ColWrap} {col0 : Byte} {c c' : Nat} {tc : Fin 64} (hc : c < 8) (hc' : c' < 8)
    (h : targetCol p col0 c = some tc) (h' : targetCol p col0 c' = some tc) : c = c' := by
  cases p with
  | wrap =>
    have e := congrArg Fin.val ((Option.some.inj h).trans (Option.some.inj h').symm)
    simp only [Fin.val_ofNat] at e
    omega
  | clip =>
    simp only [targetCol] at h h'
    split at h
    · split at h'
      · have e := congrArg Fin.val ((Option.some.inj h).trans (Option.some.inj h').symm)
        simp only at e
        omega
      · cases h'
    · cases h

/-- No two bits of a sprite of at most 32 rows land on the same pixel. -/
theorem bitTarget_pairwise (p : ColWrap) (col0 row0 : Byte) (r : Nat) (bs : List Byte) (h : bs.length ≤ 32) :
    (spriteBits r bs).Pairwise fun o o' =>
      ∀ t, bitTarget p col0 row0 o = some t → bitTarget p col0 row0 o' ≠ some t := by
  have key : ∀ (o o' : SpriteBit) (t : Fin 32 × Fin 64), o.2.1 < 8 → o'.2.1 < 8 →
      bitTarget p col0 row0 o = some t → bitTarget p col0 row0 o' = some t →
      o.2.1 = o'.2.1 ∧ (row0.toNat + o.1) % 32 = (row0.toNat + o'.1) % 32 := by
    intro o o' t hc hc' h h'
    simp only [bitTarget, Option.map_eq_some_iff] at h h'
    obtain ⟨tc, htc, rfl⟩ := h
    obtain ⟨tc', htc', e⟩ := h'
    obtain ⟨e1, rfl⟩ := Prod.mk.inj e
    exact ⟨targetCol_inj hc hc' htc htc', (congrArg Fin.val e1).symm⟩
  induction bs generalizing r with
  | nil => exact List.Pairwise.nil
  | cons b bs ih =>
    rw [spriteBits, List.pairwise_append]
    refine ⟨?_, ih (r + 1) (by simp at h; omega), ?_⟩
    · rw [List.pairwise_map]
      refine List.Pairwise.imp_of_mem ?_ (by decide : [0, 1, 2, 3, 4, 5, 6, 7].Pairwise (· ≠ ·))
      intro c c' hc hc' hne t ht ht'
      refine hne (key _ _ t ?_ ?_ ht ht').1 <;> simp at hc hc' ⊢ <;> omega
    · intro o ho o' ho' t ht ht'
      obtain ⟨k, hk, hr, hc, -⟩ := mem_spriteBits.mp ho'
      simp only [List.mem_map] at ho
      obtain ⟨c, hc0, rfl⟩ := ho
      have := (key _ _ t (by simp at hc0 ⊢; omega) hc ht ht').2
      simp only [List.length_cons] at h
      simp only [hr] at this
      omega

/-- Toggling for one condition and then for another that excludes it is toggling for either. -/
theorem xor_step {a b c : Prop} (h : b → ¬ c) : (¬ (¬ (a ↔ b) ↔ c)) ↔ ¬ (a ↔ (b ∨ c)) := by
  by_cases ha : a <;> by_cases hb : b <;> by_cases hc : c <;> simp_all

/-- A list of bits that land on different pixels: each pixel is toggled once for the 1 bit that lands on it, and the
collision flag says whether some 1 bit landed on a pixel that was on before. -/
theorem foldl_drawBit (p : ColWrap) (col0 row0 : Byte) {os : List SpriteBit}
    (h : os.Pairwise fun o o' => ∀ t, bitTarget p col0 row0 o = some t → bitTarget p col0 row0 o' ≠ some t)
    (acc : Display × Bool) :
    (∀ tr tc, ((os.foldl (fun acc o => drawBit p col0 row0 o.1 o.2.1 o.2.2 acc) acc).1.pixel tr tc = true ↔
      ¬ (acc.1.pixel tr tc = true ↔ ∃ o ∈ os, bitTarget p col0 row0 o = some (tr, tc) ∧ o.2.2 = true))) ∧
    ((os.foldl (fun acc o => drawBit p col0 row0 o.1 o.2.1 o.2.2 acc) acc).2 = true ↔
      acc.2 = true ∨ ∃ o ∈ os, ∃ tr tc, bitTarget p col0 row0 o = some (tr, tc) ∧ o.2.2 = true ∧
        acc.1.pixel tr tc = true) := by
  induction os generalizing acc with
  | nil => simp
  | cons o os ih =>
    obtain ⟨h1, h2⟩ := List.pairwise_cons.mp h
    obtain ⟨ihp, ihh⟩ := ih h2 (drawBit p col0 row0 o.1 o.2.1 o.2.2 acc)
    have hpix : ∀ tr tc, ((drawBit p col0 row0 o.1 o.2.1 o.2.2 acc).1.pixel tr tc = true ↔
        ¬ (acc.1.pixel tr tc = true ↔ (bitTarget p col0 row0 o = some (tr, tc) ∧ o.2.2 = true))) := by
      intro tr tc
      rw [pixel_drawBit]
      have e : (targetRow row0 o.1 = tr ∧ targetCol p col0 o.2.1 = some tc) ↔ bitTarget p col0 row0 o = some (tr, tc) := by
        unfold bitTarget
        cases targetCol p col0 o.2.1 <;> simp
      simp only [e]
      by_cases hb : bitTarget p col0 row0 o = some (tr, tc) <;> cases o.2.2 <;> cases acc.1.pixel tr tc <;> simp [hb]
    constructor
    · intro tr tc
      rw [List.foldl_cons, ihp, hpix]
      have hx : bitTarget p col0 row0 o = some (tr, tc) →
          ¬ ∃ o' ∈ os, bitTarget p col0 row0 o' = some (tr, tc) ∧ o'.2.2 = true :=
        fun ht ⟨o', ho', ht', _⟩ => h1 o' ho' _ ht ht'
      simp only [List.mem_cons, exists_eq_or_imp]
      exact xor_step fun hb => hx hb.1
    · rw [List.foldl_cons, ihh, hit_drawBit]
      have e : ((targetCol p col0 o.2.1).any fun tc => acc.1.pixel (targetRow row0 o.1) tc && o.2.2) = true ↔
          ∃ tr tc, bitTarget p col0 row0 o = some (tr, tc) ∧ o.2.2 = true ∧ acc.1.pixel tr tc = true := by
        unfold bitTarget
        cases targetCol p col0 o.2.1 <;> simp [and_comm]
      rw [Bool.or_eq_true, e, or_assoc]
      simp only [List.mem_cons, exists_eq_or_imp]
      refine or_congr Iff.rfl (or_congr Iff.rfl ?_)
      constructor
      · rintro ⟨o', ho', tr, tc, ht, hb, hp⟩
        rw [hpix] at hp
        have : ¬ bitTarget p col0 row0 o = some (tr, tc) := fun ht0 => h1 o' ho' _ ht0 ht
        refine ⟨o', ho', tr, tc, ht, hb, ?_⟩
        by_contra hn
        exact hp ⟨fun ha => absurd ha hn, fun hb => absurd hb.1 this⟩
      · rintro ⟨o', ho', tr, tc, ht, hb, hp⟩
        have : ¬ bitTarget p col0 row0 o = some (tr, tc) := fun ht0 => h1 o' ho' _ ht0 ht
        exact ⟨o', ho', tr, tc, ht, hb, (hpix tr tc).mpr fun hn => this (hn.mp hp).1⟩

/-- `SpriteCovers` is what the bits of the sprite at I land on. -/
theorem spriteCovers_iff (s : State) (x y n : Nibble) (r : Fin 32) (c : Fin 64) :
    SpriteCovers s x y n r c ↔
      ∃ o ∈ spriteBits 0 (s.readBytes (dataAddress s 0) n.toNat),
        bitTarget s.params.colWrap (s.reg x) (s.reg y) o = some (r, c) ∧ o.2.2 = true := by
  have hcol : ∀ dc, dc < 8 → (targetCol s.params.colWrap (s.reg x) dc = some c ↔
      LandsOnColumn s.params.colWrap (s.reg x) dc c) := by
    intro dc _
    unfold targetCol LandsOnColumn
    have := c.isLt
    cases s.params.colWrap with
    | wrap => simp [Fin.ext_iff]
    | clip =>
      dsimp only
      split
      · simp [Fin.ext_iff]
      · simp; omega
  have hrow : ∀ dr, targetRow (s.reg y) dr = r ↔ ((s.reg y).toNat + dr) % 32 = r.val := by
    intro dr; simp [targetRow, Fin.ext_iff]
  constructor
  · rintro ⟨dr, dc, h1, h2, h3, h4, h5⟩
    refine ⟨(dr, dc, true), mem_spriteBits.mpr ⟨dr, by simpa using h1, by simp, h2, ?_⟩, ?_, rfl⟩
    · rw [State.getElem_readBytes, ← h5]; simp [dataAddress]
    · simp only [bitTarget, (hcol dc h2).mpr h4, Option.map_some, (hrow dr).mpr h3]
  · rintro ⟨⟨dr, dc, b⟩, ho, ht, rfl⟩
    obtain ⟨k, hk, h1, h2, h3⟩ := mem_spriteBits.mp ho
    simp only [Nat.zero_add] at h1 h2 h3
    subst h1
    simp only [bitTarget, Option.map_eq_some_iff, Prod.mk.injEq] at ht
    obtain ⟨tc, htc, hr, rfl⟩ := ht
    refine ⟨dr, dc, by simpa using hk, h2, (hrow dr).mp hr, (hcol dc h2).mp htc, ?_⟩
    rw [State.getElem_readBytes] at h3
    simpa [dataAddress] using h3.symm

/-- What a draw does to each pixel, and what it reports. -/
theorem drawSprite_spec (x y n : Nibble) (s : State) :
    (∀ r c, (drawSprite x y n s).1.pixel r c = true ↔ ¬ (s.display.pixel r c = true ↔ SpriteCovers s x y n r c)) ∧
    ((drawSprite x y n s).2 = true ↔ ∃ r c, SpriteCovers s x y n r c ∧ s.display.pixel r c = true) := by
  have hl : (s.readBytes (dataAddress s 0) n.toNat).length ≤ 32 := by
    have := n.isLt
    simp; omega
  obtain ⟨hp, hh⟩ := foldl_drawBit s.params.colWrap (s.reg x) (s.reg y)
    (bitTarget_pairwise s.params.colWrap (s.reg x) (s.reg y) 0 _ hl) (s.display, false)
  simp only [drawSprite, drawRows_eq_foldl, spriteCovers_iff]
  refine ⟨hp, hh.trans ?_⟩
  constructor
  · rintro (h | ⟨o, ho, r, c, ht, hb, hp⟩)
    · cases h
    · exact ⟨r, c, ⟨o, ho, ht, hb⟩, hp⟩
  · rintro ⟨r, c, ⟨o, ho, ht, hb⟩, hp⟩
    exact .inr ⟨o, ho, r, c, ht, hb, hp⟩

end Sys2Proof.Machine
end

