-- ==== Sys2Proof/Laws/Exec.lean ====
section
/-! SUPPORT. What the execute phase, a fetch and a step can do, once: the inversion lemmas that statements about every
instruction and every step go through. -/

namespace Sys2Proof.Machine

/-! ### The execute phase -/

/-- Everything a completed execute phase can be: the instructions that share a shape share a case. -/
theorem exec_next_cases {i : Instr} {s t : State} (h : Sys2Proof.Machine.exec i s = .next t) :
    (∃ target, t = s.jump target ∧
      ((∃ nnn, (i = .sys nnn ∨ i = .jp nnn) ∧ target = immAddress nnn) ∨
       (∃ nnn, i = .jpV0Nnn nnn ∧ target = indexedTarget s nnn) ∨
       (∃ x, i = .ldVxK x ∧ selectKey s.params s.keys = none ∧ target = s.pc))) ∨
    (∃ taken, t = s.skipIf taken ∧
      ((∃ x kk, i = .seVxKk x kk ∧ taken = (s.reg x == kk)) ∨ (∃ x kk, i = .sneVxKk x kk ∧ taken = (s.reg x != kk)) ∨
       (∃ x y, i = .seVxVy x y ∧ taken = (s.reg x == s.reg y)) ∨ (∃ x y, i = .sneVxVy x y ∧ taken = (s.reg x != s.reg y)) ∨
       (∃ x, i = .skpVx x ∧ (s.reg x).toNat ≤ 15 ∧ taken = s.key ((s.reg x).setWidth 4)) ∨
       (∃ x, i = .sknpVx x ∧ (s.reg x).toNat ≤ 15 ∧ taken = !s.key ((s.reg x).setWidth 4)))) ∨
    (∃ (nnn : Addr12) (hs : s.sp.val < 15), i = .call nnn ∧
      t = State.jump { s with sp := ⟨s.sp.val + 1, by omega⟩, stack := s.stack.set (s.sp.val + 1) s.pc (by omega) }
        (immAddress nnn)) ∨
    (0 < s.sp.val ∧ i = .ret ∧ t = State.jump { s with sp := ⟨s.sp.val - 1, by omega⟩ } (s.slot s.sp)) ∨
    (∃ x b, t = s.setReg x b ∧
      ((i = .ldVxKk x b) ∨ (∃ kk, i = .addVxKk x kk ∧ b = s.reg x + kk) ∨ (∃ y, i = .ldVxVy x y ∧ b = s.reg y) ∨
       (∃ y, i = .orVxVy x y ∧ b = s.reg x ||| s.reg y) ∨ (∃ y, i = .andVxVy x y ∧ b = s.reg x &&& s.reg y) ∨
       (∃ y, i = .xorVxVy x y ∧ b = s.reg x ^^^ s.reg y) ∨ (i = .ldVxDt x ∧ b = s.dt))) ∨
    (∃ x f b, t = s.setFlagged x f b ∧
      ((∃ y, i = .addVxVy x y ∧ f = carryFlag (s.reg x) (s.reg y) ∧ b = s.reg x + s.reg y) ∨
       (∃ y, i = .subVxVy x y ∧ f = noBorrowFlag (s.reg x) (s.reg y) ∧ b = s.reg x - s.reg y) ∨
       (∃ y, i = .shrVx x y ∧ f = shiftRightFlag (s.reg x) ∧ b = s.reg x >>> 1) ∨
       (∃ y, i = .subnVxVy x y ∧ f = noBorrowFlag (s.reg y) (s.reg x) ∧ b = s.reg y - s.reg x) ∨
       (∃ y, i = .shlVx x y ∧ f = shiftLeftFlag (s.reg x) ∧ b = s.reg x <<< 1))) ∨
    (∃ x kk, i = .rndVxKk x kk ∧ t = loadRandom x kk (freeRandomByte s.draws) s) ∨
    (∃ w, t = s.setI w ∧
      ((∃ nnn, i = .ldINnn nnn ∧ w = immAddress nnn) ∨ (∃ x, i = .addIVx x ∧ w = s.iReg + wordOfByte (s.reg x)) ∨
       (∃ x, i = .ldFVx x ∧ w = fontAddress (s.reg x)))) ∨
    (∃ x, i = .ldBVx x ∧ dataAddress s 0 + 3 ≤ memSize ∧
      t = s.writeBytes (dataAddress s 0) (decimalDigits (s.reg x))) ∨
    (∃ x, i = .ldMemVx x ∧ dataAddress s 0 + regCount x ≤ memSize ∧
      t = s.writeBytes (dataAddress s 0) (s.firstRegs (regCount x))) ∨
    (∃ x, i = .ldVxMem x ∧ dataAddress s 0 + regCount x ≤ memSize ∧
      t = s.setRegsFrom 0 (s.readBytes (dataAddress s 0) (regCount x))) ∨
    (i = .cls ∧ t = { s with display := Display.clear }) ∨
    (∃ x y n, i = .drwVxVyN x y n ∧ (n.toNat = 0 ∨ dataAddress s 0 + n.toNat ≤ memSize) ∧
      t = { s.setReg vf (collisionFlag (drawSprite x y n s).2) with
            display := (drawSprite x y n s).1, pulse := some .renderReq }) ∨
    (∃ x k, i = .ldVxK x ∧ selectKey s.params s.keys = some k ∧
      t = { s.setReg x (k.setWidth 8) with keys := allKeysUp }) ∨
    (∃ x, i = .ldDtVx x ∧ t = s.setDt (s.reg x)) ∨
    (∃ x, i = .ldStVx x ∧ t = s.setSt (s.reg x)) := by
  have inj {a b : State} (e : (Host.Outcome.next a : Result) = .next b) : b = a := by cases e; rfl
  have ne {x : Nibble} : ¬ regCount x = 0 := by simp [regCount]
  cases i <;> simp only [Sys2Proof.Machine.exec] at h
  case cls => simp [inj h]
  case ret =>
    unfold execRet popPc at h
    split at h
    · rename_i hs; have := inj h; subst this; simp [hs]
    · cases h
  case call nnn =>
    unfold execCall pushPc at h
    split at h
    · rename_i hs; have := inj h; subst this; simp [hs]
    · cases h
  case sys => have := inj h; subst this; exact .inl ⟨_, rfl, by simp⟩
  case jp => have := inj h; subst this; exact .inl ⟨_, rfl, by simp⟩
  case jpV0Nnn => have := inj h; subst this; exact .inl ⟨_, rfl, by simp⟩
  case seVxKk => have := inj h; subst this; exact .inr (.inl ⟨_, rfl, by simp⟩)
  case sneVxKk => have := inj h; subst this; exact .inr (.inl ⟨_, rfl, by simp⟩)
  case seVxVy => have := inj h; subst this; exact .inr (.inl ⟨_, rfl, by simp⟩)
  case sneVxVy => have := inj h; subst this; exact .inr (.inl ⟨_, rfl, by simp⟩)
  case skpVx x =>
    unfold execSkpVx withKeyDigit at h
    split at h
    · rename_i hk; have := inj h; subst this; exact .inr (.inl ⟨_, rfl, by simp [hk]⟩)
    · cases h
  case sknpVx x =>
    unfold execSknpVx withKeyDigit at h
    split at h
    · rename_i hk; have := inj h; subst this; exact .inr (.inl ⟨_, rfl, by simp [hk]⟩)
    · cases h
  case ldVxK x =>
    unfold execLdVxK at h
    split at h
    · rename_i hk; have := inj h; subst this; exact .inl ⟨_, rfl, by simp [hk]⟩
    · rename_i k hk; have := inj h; subst this
      simp only [reduceCtorEq, false_and, and_false, or_false, false_or, exists_const, Instr.ldVxK.injEq]
      exact .inr (.inr ⟨x, k, rfl, hk, rfl⟩)
  case ldVxKk => have := inj h; subst this; exact .inr (.inr (.inr (.inr (.inl ⟨_, _, rfl, by simp⟩))))
  case addVxKk => have := inj h; subst this; exact .inr (.inr (.inr (.inr (.inl ⟨_, _, rfl, by simp⟩))))
  case ldVxVy => have := inj h; subst this; exact .inr (.inr (.inr (.inr (.inl ⟨_, _, rfl, by simp⟩))))
  case orVxVy => have := inj h; subst this; exact .inr (.inr (.inr (.inr (.inl ⟨_, _, rfl, by simp⟩))))
  case andVxVy => have := inj h; subst this; exact .inr (.inr (.inr (.inr (.inl ⟨_, _, rfl, by simp⟩))))
  case xorVxVy => have := inj h; subst this; exact .inr (.inr (.inr (.inr (.inl ⟨_, _, rfl, by simp⟩))))
  case ldVxDt => have := inj h; subst this; exact .inr (.inr (.inr (.inr (.inl ⟨_, _, rfl, by simp⟩))))
  case addVxVy => have := inj h; subst this; exact .inr (.inr (.inr (.inr (.inr (.inl ⟨_, _, _, rfl, by simp⟩)))))
  case subVxVy => have := inj h; subst this; exact .inr (.inr (.inr (.inr (.inr (.inl ⟨_, _, _, rfl, by simp⟩)))))
  case shrVx => have := inj h; subst this; exact .inr (.inr (.inr (.inr (.inr (.inl ⟨_, _, _, rfl, by simp⟩)))))
  case subnVxVy => have := inj h; subst this; exact .inr (.inr (.inr (.inr (.inr (.inl ⟨_, _, _, rfl, by simp⟩)))))
  case shlVx => have := inj h; subst this; exact .inr (.inr (.inr (.inr (.inr (.inl ⟨_, _, _, rfl, by simp⟩)))))
  case rndVxKk => simp [inj h]
  case ldINnn =>
    have := inj h; subst this
    exact .inr (.inr (.inr (.inr (.inr (.inr (.inr (.inl ⟨_, rfl, by simp⟩)))))))
  case addIVx =>
    have := inj h; subst this
    exact .inr (.inr (.inr (.inr (.inr (.inr (.inr (.inl ⟨_, rfl, by simp⟩)))))))
  case ldFVx =>
    have := inj h; subst this
    exact .inr (.inr (.inr (.inr (.inr (.inr (.inr (.inl ⟨_, rfl, by simp⟩)))))))
  case ldBVx => obtain ⟨hr, hb⟩ := guardRange_next h; simp only [inj hb]; simp_all
  case ldMemVx => obtain ⟨hr, hb⟩ := guardRange_next h; simp only [inj hb]; simp_all
  case ldVxMem => obtain ⟨hr, hb⟩ := guardRange_next h; simp only [inj hb]; simp_all
  case drwVxVyN x y n => obtain ⟨hr, hb⟩ := guardRange_next h; simp [inj hb, hr]
  case ldDtVx => simp [inj h]
  case ldStVx => simp [inj h]

/-! ### Fetch -/

/-- A fetch succeeds exactly when both bytes exist, and gives them high byte first. -/
theorem fetch_eq_ok {s : State} {w : Word} :
    fetch s = .ok w ↔ s.pc.toNat + 2 ≤ memSize ∧ w = wordOfBytes (s.byteAt s.pc.toNat) (s.byteAt (s.pc.toNat + 1)) := by
  unfold fetch memRead
  by_cases h0 : s.pc.toNat < memSize
  · by_cases h1 : s.pc.toNat + 1 < memSize
    · simp only [h0, h1, if_true, Except.ok.injEq]
      exact ⟨fun e => ⟨by omega, e.symm⟩, fun e => e.2.symm⟩
    · simp only [h0, h1, if_true, if_false]
      exact ⟨fun e => (nomatch e), fun e => absurd e.1 (by omega)⟩
  · simp only [h0, if_false]
    exact ⟨fun e => (nomatch e), fun e => absurd e.1 (by omega)⟩

/-- Otherwise it raises MemoryOutOfRange with the lower of the two addresses that does not exist. -/
theorem fetch_fault {s : State} (h : memSize < s.pc.toNat + 2) :
    fetch s = .error (.memoryOutOfRange (max s.pc.toNat memSize)) := by
  unfold fetch memRead
  by_cases h0 : s.pc.toNat < memSize
  · have e : s.pc.toNat + 1 = memSize := by omega
    have e' : max s.pc.toNat memSize = memSize := by omega
    simp [h0, e, e']
  · have e' : max s.pc.toNat memSize = s.pc.toNat := by omega
    simp only [h0, if_false, e']

/-! ### A step -/

theorem step_idle {s : State} (h : s.run = .idle) : step s = .fault .noProgramLoaded := by
  simp [step, stepCycle, h, raiseFault]

theorem step_of_fetch {s : State} {w : Word} (hr : s.run ≠ .idle) (hf : fetch s = .ok w) :
    step s = executeWord w s := by
  simp [step, stepCycle, fetchedCycle, hr, hf]

theorem step_fetch_fault {s : State} (hr : s.run ≠ .idle) (h : memSize < s.pc.toNat + 2) :
    step s = .fault (.memoryOutOfRange (max s.pc.toNat memSize)) := by
  simp [step, stepCycle, fetchedCycle, hr, fetch_fault h, raiseFault]

/-- A timer is one lower after the tick, and 0 stays 0. -/
theorem toNat_tickTimer (b : Byte) : (tickTimer b).toNat = b.toNat - 1 := by revert b; decide

/-- The cycle of a word whose instruction completes. -/
theorem executeWord_of_exec {w : Word} {i : Instr} {s u : State} (hd : decodeWord w = some i)
    (hx : Sys2Proof.Machine.exec i (beginCycle s) = .next u) : executeWord w s = .next (endCycle u) := by
  simp [executeWord, executePhase, hd, hx]

/-- A completed `exec_word` ran the execute phase of its word and then ended the cycle. -/
theorem executeWord_next {w : Word} {s t : State} (h : executeWord w s = .next t) :
    ∃ u, executePhase w (beginCycle s) = .next u ∧ t = endCycle u := by
  unfold executeWord at h
  split at h
  · exact ⟨_, ‹_›, by cases h; rfl⟩
  · cases h
  · cases h

/-- A completed step fetched a word and ran its cycle. -/
theorem step_next {s t : State} (h : step s = .next t) :
    s.run ≠ .idle ∧ ∃ w u, fetch s = .ok w ∧ executePhase w (beginCycle s) = .next u ∧ t = endCycle u := by
  by_cases hr : s.run = .idle
  · rw [step_idle hr] at h; cases h
  · refine ⟨hr, ?_⟩
    by_cases hp : s.pc.toNat + 2 ≤ memSize
    · have hf := fetch_eq_ok.mpr ⟨hp, rfl⟩
      rw [step_of_fetch hr hf] at h
      obtain ⟨u, hu, ht⟩ := executeWord_next h
      exact ⟨_, u, hf, hu, ht⟩
    · rw [step_fetch_fault hr (by omega)] at h; cases h

/-- A completed step whose fetch gave `w` ran the execute phase of `w` and then ended the cycle. -/
theorem step_fetched {s t : State} {w : Word} (hf : fetch s = .ok w) (h : step s = .next t) :
    ∃ u, executePhase w (beginCycle s) = .next u ∧ t = endCycle u := by
  obtain ⟨-, w', u, hf', hu, rfl⟩ := step_next h
  rw [hf] at hf'
  cases hf'
  exact ⟨u, hu, rfl⟩

/-- The execute phase of a word is that of its instruction, or the no-op of an unrecognized one. -/
theorem executePhase_next {w : Word} {s u : State} (h : executePhase w s = .next u) :
    (∃ i, decodeWord w = some i ∧ Sys2Proof.Machine.exec i s = .next u) ∨
    (decodeWord w = none ∧ u = { s with pulse := some (.decodeFail w s.pc) }) := by
  unfold executePhase at h
  split at h
  · exact .inl ⟨_, ‹_›, h⟩
  · exact .inr ⟨‹_›, by cases h; rfl⟩

end Sys2Proof.Machine
end

