-- ==== Sys2Proof/Laws/Frames.lean ====
section
/-! SUPPORT. The frame of each named state update: the pieces it may write. -/

namespace Sys2Proof.Machine

theorem unchanged_refl (ch : List Piece) (s : State) : Unchanged ch s s := by
  constructor <;> intros <;> first | rfl | exact ⟨rfl, rfl⟩

theorem unchanged_jump (s : State) (w : Word) : Unchanged [.pc] s (s.jump w) := by constructor <;> simp

theorem unchanged_skipIf (s : State) (taken : Bool) : Unchanged [.pc] s (s.skipIf taken) := by constructor <;> simp

theorem unchanged_setReg (s : State) (x : Nibble) (b : Byte) : Unchanged [.v x] s (s.setReg x b) := by
  constructor <;> simp
  intro y h
  exact State.reg_setReg_other _ _ h

theorem unchanged_setFlagged (s : State) (x : Nibble) (f b : Byte) :
    Unchanged [.v x, .v vf] s (s.setFlagged x f b) := by
  constructor <;> simp
  intro y h h'
  exact State.reg_setFlagged_other _ _ _ h h'

theorem unchanged_setI (s : State) (w : Word) : Unchanged [.i] s (s.setI w) := by constructor <;> simp

theorem unchanged_setDt (s : State) (b : Byte) : Unchanged [.dt] s (s.setDt b) := by constructor <;> simp

theorem unchanged_setSt (s : State) (b : Byte) : Unchanged [.st] s (s.setSt b) := by constructor <;> simp

theorem unchanged_loadRandom (s : State) (x : Nibble) (kk rnd : Byte) :
    Unchanged [.v x, .draws] s (loadRandom x kk rnd s) := by
  constructor <;> simp
  intro y h
  exact State.reg_setReg_other s _ h

theorem unchanged_putByte (s : State) (a : Nat) (b : Byte) : Unchanged [.bytes a 1] s (s.putByte a b) := by
  constructor <;> simp
  intro c h
  exact State.byteAt_putByte_other _ _ (by omega)

theorem unchanged_writeBytes (s : State) (base : Nat) (bs : List Byte) :
    Unchanged [.bytes base bs.length] s (s.writeBytes base bs) := by
  constructor <;> simp
  intro a h
  exact State.byteAt_writeBytes_outside _ h

theorem unchanged_drawn (s : State) (f : Byte) (d : Display) (p : Option Pulse) :
    Unchanged [.v vf, .pixels, .pulse] s { s.setReg vf f with display := d, pulse := p } := by
  constructor <;> (try simp) <;> (try intros) <;> (try rfl)
  exact State.reg_setReg_other s _ ‹_›

theorem unchanged_keyTaken (s : State) (x : Nibble) (b : Byte) (ks : Vector Bool 16) :
    Unchanged [.v x, .keys] s { s.setReg x b with keys := ks } := by
  constructor <;> (try simp) <;> (try intros) <;> (try rfl)
  exact State.reg_setReg_other s _ ‹_›

/-! ### What the stores leave at every address -/

/-- Every byte after `Fx55`. -/
theorem byteAt_storeRegs (s : State) (x : Nibble) (a : Nat) :
    (s.writeBytes (dataAddress s 0) (s.firstRegs (regCount x))).byteAt a = byteAfterRegs s x a := by
  have hx := x.isLt
  have hl := s.length_firstRegs x
  unfold byteAfterRegs
  split
  · rename_i h
    have hk : a - s.iReg.toNat < (s.firstRegs (regCount x)).length := by rw [hl, regCount]; omega
    have := State.byteAt_writeBytes_inside s (dataAddress s 0) hk
    rw [State.getElem_firstRegs s hk (by omega)] at this
    rwa [show dataAddress s 0 + (a - s.iReg.toNat) = a by simp only [dataAddress]; omega] at this
  · exact State.byteAt_writeBytes_outside s (by rw [hl]; simp only [dataAddress, regCount]; omega)

/-- Every byte after `Fx33`. -/
theorem byteAt_storeDigits (s : State) (x : Nibble) (a : Nat) :
    (s.writeBytes (dataAddress s 0) (decimalDigits (s.reg x))).byteAt a = byteAfterDigits s x a := by
  have inside (k : Nat) (hk : k < 3) :=
    State.byteAt_writeBytes_inside s (dataAddress s 0) (bs := decimalDigits (s.reg x)) (k := k) hk
  unfold byteAfterDigits
  split
  · subst a; exact inside 0 (by omega)
  · split
    · subst a; exact inside 1 (by omega)
    · split
      · subst a; exact inside 2 (by omega)
      · exact State.byteAt_writeBytes_outside s (by simp only [dataAddress, decimalDigits, List.length_cons, List.length_nil]; omega)

/-! ### Runs -/

theorem runsTo_zero {s t : State} : RunsTo 0 s t ↔ s = t := by
  constructor
  · intro h; cases h; rfl
  · rintro rfl; rfl

theorem run_succ (M : Host.Core) (k : Nat) (s : M.State) :
    M.run (k + 1) s =
      match M.step s with
      | .next u => M.run k u
      | .fault f => .fault f
      | .refused r => .refused r := rfl

/-- A run of `k + 1` cycles is a cycle followed by a run of `k`. -/
theorem runsTo_succ {k : Nat} {s t : State} : RunsTo (k + 1) s t ↔ ∃ u, step s = .next u ∧ RunsTo k u t := by
  refine (iff_of_eq (congrArg (· = Host.Outcome.next t) (run_succ Sys2Proof.core k s))).trans ?_
  have hs : Sys2Proof.core.step s = step s := rfl
  rw [hs]
  cases step s with
  | next u => exact ⟨fun h => ⟨u, rfl, h⟩, fun ⟨_, h, h'⟩ => by cases h; exact h'⟩
  | fault f => exact ⟨fun h => (nomatch h), fun ⟨_, h, _⟩ => (nomatch h)⟩
  | refused r => exact ⟨fun h => (nomatch h), fun ⟨_, h, _⟩ => (nomatch h)⟩

end Sys2Proof.Machine
end

