-- ==== Sys2Proof/Laws/PerInstr.lean ====
section
/-! SUPPORT. Statements for all instructions, one lemma per constructor: the family `OperandFields` says that the fields of an
instruction's encoding (30_encoding.md R51, R52) are its opcode class, its selector and its operands. -/

namespace Sys2Proof.Laws.OperandFields

/-- The fields of the word `w`, named as a format of R52 names them. -/
def Fixed (w k : Word) : Prop := w = k
def OpNnn (w : Word) (o : Nibble) (nnn : Addr12) : Prop := fieldOp w = o ∧ fieldNnn w = nnn
def OpXKk (w : Word) (o x : Nibble) (kk : Byte) : Prop := fieldOp w = o ∧ fieldX w = x ∧ fieldKk w = kk
def OpXYN (w : Word) (o x y n : Nibble) : Prop := fieldOp w = o ∧ fieldX w = x ∧ fieldY w = y ∧ fieldN w = n

/-- What the family states of an instruction. -/
def Statement (i : Instr) : Prop :=
  match i with
  | .cls => Fixed (encode i) 0x00E0#16
  | .ret => Fixed (encode i) 0x00EE#16
  | .sys nnn => OpNnn (encode i) 0x0#4 nnn
  | .jp nnn => OpNnn (encode i) 0x1#4 nnn
  | .call nnn => OpNnn (encode i) 0x2#4 nnn
  | .seVxKk x kk => OpXKk (encode i) 0x3#4 x kk
  | .sneVxKk x kk => OpXKk (encode i) 0x4#4 x kk
  | .seVxVy x y => OpXYN (encode i) 0x5#4 x y 0x0#4
  | .ldVxKk x kk => OpXKk (encode i) 0x6#4 x kk
  | .addVxKk x kk => OpXKk (encode i) 0x7#4 x kk
  | .ldVxVy x y => OpXYN (encode i) 0x8#4 x y 0x0#4
  | .orVxVy x y => OpXYN (encode i) 0x8#4 x y 0x1#4
  | .andVxVy x y => OpXYN (encode i) 0x8#4 x y 0x2#4
  | .xorVxVy x y => OpXYN (encode i) 0x8#4 x y 0x3#4
  | .addVxVy x y => OpXYN (encode i) 0x8#4 x y 0x4#4
  | .subVxVy x y => OpXYN (encode i) 0x8#4 x y 0x5#4
  | .shrVx x y => OpXYN (encode i) 0x8#4 x y 0x6#4
  | .subnVxVy x y => OpXYN (encode i) 0x8#4 x y 0x7#4
  | .shlVx x y => OpXYN (encode i) 0x8#4 x y 0xE#4
  | .sneVxVy x y => OpXYN (encode i) 0x9#4 x y 0x0#4
  | .ldINnn nnn => OpNnn (encode i) 0xA#4 nnn
  | .jpV0Nnn nnn => OpNnn (encode i) 0xB#4 nnn
  | .rndVxKk x kk => OpXKk (encode i) 0xC#4 x kk
  | .drwVxVyN x y n => OpXYN (encode i) 0xD#4 x y n
  | .skpVx x => OpXKk (encode i) 0xE#4 x 0x9E#8
  | .sknpVx x => OpXKk (encode i) 0xE#4 x 0xA1#8
  | .ldVxDt x => OpXKk (encode i) 0xF#4 x 0x07#8
  | .ldVxK x => OpXKk (encode i) 0xF#4 x 0x0A#8
  | .ldDtVx x => OpXKk (encode i) 0xF#4 x 0x15#8
  | .ldStVx x => OpXKk (encode i) 0xF#4 x 0x18#8
  | .addIVx x => OpXKk (encode i) 0xF#4 x 0x1E#8
  | .ldFVx x => OpXKk (encode i) 0xF#4 x 0x29#8
  | .ldBVx x => OpXKk (encode i) 0xF#4 x 0x33#8
  | .ldMemVx x => OpXKk (encode i) 0xF#4 x 0x55#8
  | .ldVxMem x => OpXKk (encode i) 0xF#4 x 0x65#8

theorem op_x_kk (o x : Nibble) (kk : Byte) : OpXKk (o ++ x ++ kk) o x kk :=
  ⟨fieldOp_op_x_kk _ _ _, fieldX_op_x_kk _ _ _, fieldKk_op_x_kk _ _ _⟩

theorem op_x_y_n (o x y n : Nibble) : OpXYN (o ++ x ++ y ++ n) o x y n :=
  ⟨fieldOp_op_x_y_n _ _ _ _, fieldX_op_x_y_n _ _ _ _, fieldY_op_x_y_n _ _ _ _, fieldN_op_x_y_n _ _ _ _⟩

theorem cls : Statement .cls := rfl
theorem ret : Statement .ret := rfl
theorem sys (nnn : Addr12) : Statement (.sys nnn) := ⟨fieldOp_op_nnn _ _, fieldNnn_op_nnn _ _⟩
theorem jp (nnn : Addr12) : Statement (.jp nnn) := ⟨fieldOp_op_nnn _ _, fieldNnn_op_nnn _ _⟩
theorem call (nnn : Addr12) : Statement (.call nnn) := ⟨fieldOp_op_nnn _ _, fieldNnn_op_nnn _ _⟩
theorem seVxKk (x : Nibble) (kk : Byte) : Statement (.seVxKk x kk) := op_x_kk _ _ _
theorem sneVxKk (x : Nibble) (kk : Byte) : Statement (.sneVxKk x kk) := op_x_kk _ _ _
theorem seVxVy (x y : Nibble) : Statement (.seVxVy x y) := op_x_y_n _ _ _ _
theorem ldVxKk (x : Nibble) (kk : Byte) : Statement (.ldVxKk x kk) := op_x_kk _ _ _
theorem addVxKk (x : Nibble) (kk : Byte) : Statement (.addVxKk x kk) := op_x_kk _ _ _
theorem ldVxVy (x y : Nibble) : Statement (.ldVxVy x y) := op_x_y_n _ _ _ _
theorem orVxVy (x y : Nibble) : Statement (.orVxVy x y) := op_x_y_n _ _ _ _
theorem andVxVy (x y : Nibble) : Statement (.andVxVy x y) := op_x_y_n _ _ _ _
theorem xorVxVy (x y : Nibble) : Statement (.xorVxVy x y) := op_x_y_n _ _ _ _
theorem addVxVy (x y : Nibble) : Statement (.addVxVy x y) := op_x_y_n _ _ _ _
theorem subVxVy (x y : Nibble) : Statement (.subVxVy x y) := op_x_y_n _ _ _ _
theorem shrVx (x y : Nibble) : Statement (.shrVx x y) := op_x_y_n _ _ _ _
theorem subnVxVy (x y : Nibble) : Statement (.subnVxVy x y) := op_x_y_n _ _ _ _
theorem shlVx (x y : Nibble) : Statement (.shlVx x y) := op_x_y_n _ _ _ _
theorem sneVxVy (x y : Nibble) : Statement (.sneVxVy x y) := op_x_y_n _ _ _ _
theorem ldINnn (nnn : Addr12) : Statement (.ldINnn nnn) := ⟨fieldOp_op_nnn _ _, fieldNnn_op_nnn _ _⟩
theorem jpV0Nnn (nnn : Addr12) : Statement (.jpV0Nnn nnn) := ⟨fieldOp_op_nnn _ _, fieldNnn_op_nnn _ _⟩
theorem rndVxKk (x : Nibble) (kk : Byte) : Statement (.rndVxKk x kk) := op_x_kk _ _ _
theorem drwVxVyN (x y n : Nibble) : Statement (.drwVxVyN x y n) := op_x_y_n _ _ _ _
theorem skpVx (x : Nibble) : Statement (.skpVx x) := op_x_kk _ _ _
theorem sknpVx (x : Nibble) : Statement (.sknpVx x) := op_x_kk _ _ _
theorem ldVxDt (x : Nibble) : Statement (.ldVxDt x) := op_x_kk _ _ _
theorem ldVxK (x : Nibble) : Statement (.ldVxK x) := op_x_kk _ _ _
theorem ldDtVx (x : Nibble) : Statement (.ldDtVx x) := op_x_kk _ _ _
theorem ldStVx (x : Nibble) : Statement (.ldStVx x) := op_x_kk _ _ _
theorem addIVx (x : Nibble) : Statement (.addIVx x) := op_x_kk _ _ _
theorem ldFVx (x : Nibble) : Statement (.ldFVx x) := op_x_kk _ _ _
theorem ldBVx (x : Nibble) : Statement (.ldBVx x) := op_x_kk _ _ _
theorem ldMemVx (x : Nibble) : Statement (.ldMemVx x) := op_x_kk _ _ _
theorem ldVxMem (x : Nibble) : Statement (.ldVxMem x) := op_x_kk _ _ _

end Sys2Proof.Laws.OperandFields
end

