-- ==== Sys2Proof/Laws/Reset.lean ====
section
/-! SUPPORT. What the container reset and the engine reset leave in each field and at each address, so that no proof about
`reset`, `load` or power-on unfolds them. -/

namespace Sys2Proof.Machine

/-! ### `containerReset` -/

@[simp] theorem containerReset_v (s : State) : (containerReset s).v = Vector.replicate 16 0 := rfl
@[simp] theorem containerReset_iReg (s : State) : (containerReset s).iReg = 0 := rfl
@[simp] theorem containerReset_sp (s : State) : (containerReset s).sp = 0 := rfl
@[simp] theorem containerReset_stack (s : State) : (containerReset s).stack = Vector.replicate 16 0 := rfl
@[simp] theorem containerReset_dt (s : State) : (containerReset s).dt = 0 := rfl
@[simp] theorem containerReset_st (s : State) : (containerReset s).st = 0 := rfl
@[simp] theorem containerReset_display (s : State) : (containerReset s).display = Display.clear := rfl
@[simp] theorem containerReset_keys (s : State) : (containerReset s).keys = s.keys := rfl
@[simp] theorem containerReset_image (s : State) : (containerReset s).image = s.image := rfl
@[simp] theorem containerReset_pcSet (s : State) : (containerReset s).pcSet = false := rfl
@[simp] theorem containerReset_pulse (s : State) : (containerReset s).pulse = none := rfl
@[simp] theorem containerReset_draws (s : State) : (containerReset s).draws = s.draws := rfl
@[simp] theorem containerReset_params (s : State) : (containerReset s).params = s.params := rfl
@[simp] theorem containerReset_pc (s : State) : (containerReset s).pc = 0 := rfl
@[simp] theorem containerReset_mem (s : State) : (containerReset s).mem = [] := rfl
@[simp] theorem containerReset_run (s : State) : (containerReset s).run = s.run := rfl

/-- After a container reset every address reads as the reset contents. -/
@[simp] theorem containerReset_byteAt (s : State) (a : Nat) :
    (containerReset s).byteAt a = Memory.unlisted s.params.font a := rfl

/-! ### `engineReset` -/

@[simp] theorem engineReset_v (img : List Byte) (s : State) : (engineReset img s).v = Vector.replicate 16 0 := by simp [engineReset]
@[simp] theorem engineReset_iReg (img : List Byte) (s : State) : (engineReset img s).iReg = 0 := by simp [engineReset]
@[simp] theorem engineReset_sp (img : List Byte) (s : State) : (engineReset img s).sp = 0 := by simp [engineReset]
@[simp] theorem engineReset_stack (img : List Byte) (s : State) : (engineReset img s).stack = Vector.replicate 16 0 := by simp [engineReset]
@[simp] theorem engineReset_dt (img : List Byte) (s : State) : (engineReset img s).dt = 0 := by simp [engineReset]
@[simp] theorem engineReset_st (img : List Byte) (s : State) : (engineReset img s).st = 0 := by simp [engineReset]
@[simp] theorem engineReset_display (img : List Byte) (s : State) : (engineReset img s).display = Display.clear := by simp [engineReset]
@[simp] theorem engineReset_keys (img : List Byte) (s : State) : (engineReset img s).keys = s.keys := by simp [engineReset]
@[simp] theorem engineReset_image (img : List Byte) (s : State) : (engineReset img s).image = s.image := by simp [engineReset]
@[simp] theorem engineReset_pcSet (img : List Byte) (s : State) : (engineReset img s).pcSet = false := by simp [engineReset]
@[simp] theorem engineReset_pulse (img : List Byte) (s : State) : (engineReset img s).pulse = none := by simp [engineReset]
@[simp] theorem engineReset_draws (img : List Byte) (s : State) : (engineReset img s).draws = s.draws := by simp [engineReset]
@[simp] theorem engineReset_params (img : List Byte) (s : State) : (engineReset img s).params = s.params := by simp [engineReset]
@[simp] theorem engineReset_pc (img : List Byte) (s : State) : (engineReset img s).pc = 0x200 := rfl
@[simp] theorem engineReset_run (img : List Byte) (s : State) : (engineReset img s).run = .ready := rfl
@[simp] theorem engineReset_reg (img : List Byte) (s : State) (x : Nibble) : (engineReset img s).reg x = 0 := by
  simp [State.reg]
@[simp] theorem engineReset_slot (img : List Byte) (s : State) (k : Fin 16) : (engineReset img s).slot k = 0 := by
  simp [State.slot]
@[simp] theorem engineReset_key (img : List Byte) (s : State) (k : Nibble) : (engineReset img s).key k = s.key k := by
  simp [State.key]

/-- After an engine reset the image stands from 0x200 on, and every other address reads as the reset contents. -/
theorem engineReset_byteAt (img : List Byte) (s : State) (a : Nat) :
    (engineReset img s).byteAt a =
      if h : 0x200 ≤ a ∧ a < 0x200 + img.length then img[a - 0x200] else Memory.unlisted s.params.font a := by
  have e : (engineReset img s).byteAt a = ((containerReset s).writeBytes loadBase img).byteAt a := rfl
  rw [e]
  split
  · rename_i h
    have := State.byteAt_writeBytes_inside (containerReset s) loadBase (bs := img) (k := a - 0x200) (by omega)
    rwa [show loadBase + (a - 0x200) = a by simp only [loadBase]; omega] at this
  · rw [State.byteAt_writeBytes_outside _ (by simp only [loadBase]; omega)]
    rfl

/-! ### The reset contents -/

/-- FONT in its place. -/
theorem Memory.unlisted_font (font : Vector Byte 80) (j : Fin 80) : Memory.unlisted font (0x050 + j.val) = font[j] := by
  rw [Memory.unlisted, dif_pos (by have := j.isLt; simp only [fontBase, fontBytes]; omega)]
  simp

/-- Zero outside it. -/
theorem Memory.unlisted_zero (font : Vector Byte 80) {a : Nat} (h : a < 0x050 ∨ 0x0A0 ≤ a) :
    Memory.unlisted font a = 0 := by
  rw [Memory.unlisted, dif_neg (by simp only [fontBase, fontBytes]; omega)]

end Sys2Proof.Machine
end

