-- ==== Sys2Proof/Tests/Slice0.lean ====
section
/-! SUPPORT. The model's own tests. Expected values are the vectors of spec/95_test_vectors.md (S1 to S14, T1 to T7) and words
written out from the patterns of 30_encoding.md R56. Then, for each obligation with hypotheses, states and operands that meet
them. -/

namespace Sys2Proof.Tests

open Sys2Proof Sys2Proof.Machine

/-! ### Helpers -/

/-- The state after `load` of an empty image. -/
abbrev s0 : State := State.reset

/-- One step with the word placed at PC completes in a state with property `p`. -/
def after (s : State) (w : Nat) (p : State → Bool) : Bool :=
  match step (s.withFetchWord 16 w) with
  | .next t => p t
  | .fault _ => false
  | .refused _ => false

/-- The fault of one step with the word placed at PC. -/
def faultOf (s : State) (w : Nat) : Option Fault := (afterCall s (step (s.withFetchWord 16 w))).2

/-- A step from `s` completes. -/
def completes (s : State) : Bool :=
  match step s with
  | .next _ => true
  | .fault _ => false
  | .refused _ => false

/-- The instruction completes in a state with property `p`. -/
def execs (i : Instr) (s : State) (p : State → Bool) : Bool :=
  match Sys2Proof.Machine.exec i s with
  | .next t => p t
  | .fault _ => false
  | .refused _ => false

/-- The state an instruction completes in; the state itself where it faults. -/
def execState (i : Instr) (s : State) : State := (afterCall s (Sys2Proof.Machine.exec i s)).1

/-- The pixels of one row that are on. -/
def litRow (s : State) (r : Fin 32) : List Nat :=
  (List.finRange 64).filterMap fun c => if s.display.pixel r c then some c.val else none

/-! ### Well-formedness: the one check, and a term it refuses for each of its two values -/

theorem test_wellFormed_sys_cls : (Instr.sys 0x0E0#12).wellFormed = false := by decide
theorem test_wellFormed_sys_ret : (Instr.sys 0x0EE#12).wellFormed = false := by decide
theorem test_wellFormed_sys_other : (Instr.sys 0x1E0#12).wellFormed = true := by decide

/-! ### Decoding: a word written out bit by bit for every row of R56 -/

theorem test_decode_cls : decodeWord 0b0000000011100000 = some .cls := by decide
theorem test_decode_ret : decodeWord 0b0000000011101110 = some .ret := by decide
theorem test_decode_sys : decodeWord 0b0000000011100001 = some (.sys 0x0E1) := by decide
theorem test_decode_sys_not_cls : decodeWord 0b0000000111100000 = some (.sys 0x1E0) := by decide
theorem test_decode_jp : decodeWord 0b0001001101000101 = some (.jp 0x345) := by decide
theorem test_decode_call : decodeWord 0b0010001000000110 = some (.call 0x206) := by decide
theorem test_decode_seVxKk : decodeWord 0b0011000100101010 = some (.seVxKk 1 0x2A) := by decide
theorem test_decode_sneVxKk : decodeWord 0b0100001000000111 = some (.sneVxKk 2 0x07) := by decide
theorem test_decode_seVxVy : decodeWord 0b0101001101000000 = some (.seVxVy 3 4) := by decide
theorem test_decode_ldVxKk : decodeWord 0b0110101000010010 = some (.ldVxKk 0xA 0x12) := by decide
theorem test_decode_addVxKk : decodeWord 0b0111000111111110 = some (.addVxKk 1 0xFE) := by decide
theorem test_decode_ldVxVy : decodeWord 0b1000000100100000 = some (.ldVxVy 1 2) := by decide
theorem test_decode_orVxVy : decodeWord 0b1000000100100001 = some (.orVxVy 1 2) := by decide
theorem test_decode_andVxVy : decodeWord 0b1000000100100010 = some (.andVxVy 1 2) := by decide
theorem test_decode_xorVxVy : decodeWord 0b1000000100100011 = some (.xorVxVy 1 2) := by decide
theorem test_decode_addVxVy : decodeWord 0b1000000100100100 = some (.addVxVy 1 2) := by decide
theorem test_decode_subVxVy : decodeWord 0b1000000100100101 = some (.subVxVy 1 2) := by decide
theorem test_decode_shrVx : decodeWord 0b1000000100100110 = some (.shrVx 1 2) := by decide
theorem test_decode_subnVxVy : decodeWord 0b1000000100100111 = some (.subnVxVy 1 2) := by decide
theorem test_decode_shlVx : decodeWord 0b1000000100101110 = some (.shlVx 1 2) := by decide
theorem test_decode_sneVxVy : decodeWord 0b1001001101000000 = some (.sneVxVy 3 4) := by decide
theorem test_decode_ldINnn : decodeWord 0b1010001101000101 = some (.ldINnn 0x345) := by decide
theorem test_decode_jpV0Nnn : decodeWord 0b1011001100000000 = some (.jpV0Nnn 0x300) := by decide
theorem test_decode_rndVxKk : decodeWord 0b1100010000111100 = some (.rndVxKk 4 0x3C) := by decide
theorem test_decode_drwVxVyN : decodeWord 0b1101000100100101 = some (.drwVxVyN 1 2 5) := by decide
theorem test_decode_skpVx : decodeWord 0b1110001010011110 = some (.skpVx 2) := by decide
theorem test_decode_sknpVx : decodeWord 0b1110001010100001 = some (.sknpVx 2) := by decide
theorem test_decode_ldVxDt : decodeWord 0b1111000100000111 = some (.ldVxDt 1) := by decide
theorem test_decode_ldVxK : decodeWord 0b1111001000001010 = some (.ldVxK 2) := by decide
theorem test_decode_ldDtVx : decodeWord 0b1111001100010101 = some (.ldDtVx 3) := by decide
theorem test_decode_ldStVx : decodeWord 0b1111010000011000 = some (.ldStVx 4) := by decide
theorem test_decode_addIVx : decodeWord 0b1111010100011110 = some (.addIVx 5) := by decide
theorem test_decode_ldFVx : decodeWord 0b1111011000101001 = some (.ldFVx 6) := by decide
theorem test_decode_ldBVx : decodeWord 0b1111011100110011 = some (.ldBVx 7) := by decide
theorem test_decode_ldMemVx : decodeWord 0b1111100001010101 = some (.ldMemVx 8) := by decide
theorem test_decode_ldVxMem : decodeWord 0b1111100101100101 = some (.ldVxMem 9) := by decide

/-- T1.2 to T1.6: the unrecognized classes. -/
theorem test_decode_unrecognized :
    [0x5121, 0x9AB1, 0x8128, 0x812F, 0xE19F, 0xE000, 0xF000, 0xF1FF, 0xF175].map decodeWord = List.replicate 9 none := by
  decide

/-- Bytes: big-endian, the bytes after the word are left, and one byte is no instruction. -/
theorem test_decode_bytes :
    decode [0x6A, 0x12, 0xFF] = .ok (.ldVxKk 0xA 0x12, [0xFF]) ∧ decode [0x6A] = .error .truncated ∧
    decode [0x51, 0x21] = .error (.unrecognized 0x5121) := by decide

theorem test_decodeTableWord : decodeTableWord 16 0x6A12 = some (.ldVxKk 0xA 0x12) ∧ decodeTableWord 16 0x5121 = none := by
  decide

theorem test_encode : encode (.drwVxVyN 1 2 5) = 0xD125 ∧ encodeBytes (.call 0x206) = [0x22, 0x06] := by decide

/-! ### The cycle -/

/-- T1.2. -/
theorem test_unrecognized :
    after (({ s0 with dt := 2 } : State).setReg 1 7) 0x5121 (fun t =>
      t.pulse == some (.decodeFail 0x5121 0x200) && t.pc == 0x202 && t.dt == 1 && t.reg 1 == 7) = true := by decide

/-- T1.11. -/
theorem test_step_last_word : after { s0 with pc := 0xFFE } 0x6A12 (fun t =>
    t.reg 10 == 0x12 && t.pc == 0x1000 && (afterCall t (step t)).2 == some (.memoryOutOfRange 0x1000)) = true := by decide

/-- T1.12, T1.13. -/
theorem test_fetch_faults :
    step { s0 with pc := 0xFFF } = .fault (.memoryOutOfRange 4096) ∧
    step { s0 with pc := 0x1000, dt := 5 } = .fault (.memoryOutOfRange 0x1000) := ⟨rfl, rfl⟩

/-- T1.16. -/
theorem test_step_idle : step powerOn = .fault .noProgramLoaded := rfl

/-- T1.14. -/
theorem test_execWord_wraps : (afterCall s0 (executeWord 0x6000 { s0 with pc := 0xFFFE })).1.pc = 0x0000 := by decide

/-! ### Control flow (T2) -/

theorem test_sys : after s0 0x0123 (fun t => t.pc == 0x123) = true := by decide
theorem test_sys_00E1 : after { s0 with dt := 2 } 0x00E1 (fun t => t.pc == 0x0E1 && t.dt == 1 && t.pulse == none) = true := by
  decide
theorem test_jp : after s0 0x1345 (fun t => t.pc == 0x345) = true := by decide

/-- T2.3. -/
theorem test_call : after { s0 with pc := 0x300, sp := 14 } 0x2400 (fun t =>
    t.sp == 15 && t.slot 15 == 0x300 && t.pc == 0x400) = true := by decide
/-- T2.4. -/
theorem test_call_overflow : faultOf { s0 with pc := 0x300, sp := 15 } 0x2400 = some (.stackOverflow 15) := by decide
/-- T2.6. -/
theorem test_ret : after { s0 with pc := 0x208, sp := 1, stack := s0.stack.set 1 0x202 } 0x00EE (fun t =>
    t.pc == 0x202 && t.sp == 0 && t.slot 1 == 0x202) = true := by decide
/-- T2.5. -/
theorem test_ret_underflow : faultOf s0 0x00EE = some (.stackUnderflow 0) := by decide
/-- T2.7. -/
theorem test_seVxKk_taken : after { s0 with pc := 0x208 } 0x3100 (fun t => t.pc == 0x20C) = true := by decide
/-- T2.8. -/
theorem test_seVxKk_not_taken : after (({ s0 with pc := 0x208 } : State).setReg 1 1) 0x3100 (fun t => t.pc == 0x20A) = true := by
  decide
/-- T2.9. -/
theorem test_sneVxKk : after (({ s0 with pc := 0x300 } : State).setReg 2 7) 0x4207 (fun t => t.pc == 0x302) = true ∧
    after (({ s0 with pc := 0x300 } : State).setReg 2 7) 0x4208 (fun t => t.pc == 0x304) = true := by decide
/-- T2.11 (`x = y`). -/
theorem test_seVxVy : after (s0.setReg 1 0x33) 0x5110 (fun t => t.pc == 0x204) = true := by decide
/-- T2.12. -/
theorem test_sneVxVy : after ((({ s0 with pc := 0x210 } : State).setReg 3 9).setReg 4 8) 0x9340 (fun t => t.pc == 0x214) = true := by
  decide
/-- T2.13. -/
theorem test_jpV0Nnn : after ((s0.setReg 0 4).setReg 3 0x99) 0xB300 (fun t => t.pc == 0x304) = true := by decide
/-- T2.14. -/
theorem test_jpV0Nnn_unmasked : after (s0.setReg 0 0xFF) 0xBFFF (fun t =>
    t.pc == 0x10FE && (afterCall t (step t)).2 == some (.memoryOutOfRange 0x10FE)) = true := by decide

/-! ### Load, arithmetic, logic, shift, random (S3 to S6, T3) -/

theorem test_ldVxKk_vf : after s0 0x6F07 (fun t => t.reg vf == 7 && t.pc == 0x202) = true := by decide
theorem test_addVxKk : after (s0.setReg 3 0xFF) 0x73FF (fun t => t.reg 3 == 0xFE && t.reg vf == 0) = true := by decide
theorem test_ldVxVy : after (s0.setReg 2 0x7C) 0x8120 (fun t => t.reg 1 == 0x7C && t.reg 2 == 0x7C) = true := by decide
theorem test_orVxVy : after (((s0.setReg 1 0x0F).setReg 2 0xA0).setReg vf 9) 0x8121 (fun t =>
    t.reg 1 == 0xAF && t.reg vf == 9) = true := by decide
theorem test_andVxVy : after ((s0.setReg 1 0x3C).setReg 2 0x0F) 0x8122 (fun t => t.reg 1 == 0x0C) = true := by decide
theorem test_xorVxVy : after ((s0.setReg 1 0xFF).setReg 2 0x0F) 0x8123 (fun t => t.reg 1 == 0xF0) = true := by decide
theorem test_addVxVy_carry : after ((s0.setReg 1 0xFF).setReg 2 1) 0x8124 (fun t =>
    t.reg 1 == 0 && t.reg vf == 1 && t.reg 2 == 1) = true := by decide
/-- T3.10 (`x = F`: the sum lands last). -/
theorem test_addVxVy_vf : after ((s0.setReg vf 0xFF).setReg 1 1) 0x8F14 (fun t => t.reg vf == 0 && t.reg 1 == 1) = true := by
  decide
theorem test_subVxVy_borrow : after ((s0.setReg 1 3).setReg 2 5) 0x8125 (fun t => t.reg 1 == 254 && t.reg vf == 0) = true := by
  decide
/-- T3.15. -/
theorem test_subVxVy_vf : after ((s0.setReg vf 0x10).setReg 1 0x20) 0x8F15 (fun t =>
    t.reg vf == 0xF0 && t.reg 1 == 0x20) = true := by decide
/-- T3.22. -/
theorem test_shrVx : after ((s0.setReg 1 1).setReg 2 0x55) 0x8126 (fun t =>
    t.reg 1 == 0 && t.reg vf == 1 && t.reg 2 == 0x55) = true := by decide
theorem test_shrVx_vf : after (s0.setReg vf 0x81) 0x8F06 (fun t => t.reg vf == 0x40) = true := by decide
/-- T3.17, T3.18. -/
theorem test_subnVxVy : after ((s0.setReg 1 3).setReg 2 5) 0x8127 (fun t => t.reg 1 == 2 && t.reg vf == 1) = true ∧
    after ((s0.setReg 1 5).setReg 2 3) 0x8127 (fun t => t.reg 1 == 254 && t.reg vf == 0) = true := by decide
theorem test_subnVxVy_vf : after ((s0.setReg vf 0x10).setReg 1 0x20) 0x8F17 (fun t => t.reg vf == 0x10) = true := by decide
theorem test_shlVx : after (s0.setReg 1 0x81) 0x810E (fun t => t.reg 1 == 2 && t.reg vf == 1) = true := by decide
theorem test_shlVx_vf : after (s0.setReg vf 0x81) 0x8F0E (fun t => t.reg vf == 2) = true := by decide
/-- T3.27: with the byte 0x5A. -/
theorem test_rnd_masked : (loadRandom 4 0x3C 0x5A s0).reg 4 = 0x18 := by decide
/-- T3.28: with any byte. -/
theorem test_rnd_zero_mask : ∀ rnd : Byte, (loadRandom 4 0 rnd s0).reg 4 = 0 ∧ (loadRandom 4 0 rnd s0).draws = 1 := by
  intro rnd
  simp [loadRandom, State.setReg, State.reg, State.reset]

/-! ### The address register and memory (T4) -/

theorem test_ldINnn : after s0 0xAFFF (fun t => t.iReg == 0xFFF) = true := by decide
/-- T4.3, T4.4. -/
theorem test_addIVx : after (({ s0 with iReg := 0xFFF } : State).setReg 1 1) 0xF11E (fun t =>
      t.iReg == 0x1000 && t.reg vf == 0) = true ∧
    after (({ s0 with iReg := 0xFFFF } : State).setReg 1 2) 0xF11E (fun t => t.iReg == 1) = true := by decide
/-- T4.5, T4.6. -/
theorem test_ldFVx : after (s0.setReg 2 0x0A) 0xF229 (fun t => t.iReg == 0x082) = true ∧
    after (s0.setReg 1 255) 0xF129 (fun t => t.iReg == 0x54B) = true := by decide
/-- T4.9. -/
theorem test_ldBVx : after (({ s0 with iReg := 0xFFD } : State).setReg 0 123) 0xF033 (fun t =>
    t.byteAt 0xFFD == 1 && t.byteAt 0xFFE == 2 && t.byteAt 0xFFF == 3 && t.pc == 0x202 && t.iReg == 0xFFD) = true := by decide
/-- T4.10. -/
theorem test_ldBVx_fault : faultOf (({ s0 with iReg := 0xFFE } : State).setReg 0 123) 0xF033 = some (.memoryOutOfRange 4096) := by
  decide
/-- T4.11. -/
theorem test_ldMemVx : after (((({ s0 with iReg := 0x400 } : State).setReg 0 0xAA).setReg 1 0xBB).setReg 2 0xCC) 0xF255 (fun t =>
    t.byteAt 0x400 == 0xAA && t.byteAt 0x401 == 0xBB && t.byteAt 0x402 == 0xCC && t.byteAt 0x403 == 0 &&
    t.iReg == 0x400) = true := by decide
/-- T4.14. -/
theorem test_ldMemVx_fault : faultOf { s0 with iReg := 0xFFE } 0xF255 = some (.memoryOutOfRange 4096) := by decide
/-- T4.16, with the default FONT. -/
theorem test_ldVxMem : after { s0 with iReg := 0x050 } 0xFF65 (fun t => t.v.toList ==
    [0xF0, 0x90, 0x90, 0x90, 0xF0, 0x20, 0x60, 0x20, 0x20, 0x70, 0xF0, 0x10, 0xF0, 0x80, 0xF0, 0xF0]) = true := by decide
/-- T4.17. -/
theorem test_ldVxMem_fault : faultOf { s0 with iReg := 0x1234 } 0xF065 = some (.memoryOutOfRange 0x1234) := by decide
/-- T4.18: the store is what the next cycle fetches. -/
theorem test_store_into_code : after ((({ s0 with iReg := 0x202 } : State).setReg 0 0x12).setReg 1 0x00) 0xF155 (fun t =>
    (afterCall t (step t)).1.pc == 0x200) = true := by decide

/-! ### The display (T5) -/

/-- I at 0x300 with one sprite byte there, and V[0], V[1]. -/
def sprite (b v0 v1 : Byte) : State := ((({ s0 with iReg := 0x300 } : State).putByte 0x300 b).setReg 0 v0).setReg 1 v1

/-- T5.12. -/
theorem test_cls : after { s0.setReg vf 1 with display := s0.display.setPixel 3 3 true } 0x00E0 (fun t =>
    !t.display.pixel 3 3 && t.reg vf == 1 && t.pulse == none) = true := by decide
/-- T5.1, `wrap`. -/
theorem test_drw_wrap : execs (.drwVxVyN 0 1 1) (sprite 0xFF 60 0) (fun t =>
    litRow t 0 == [0, 1, 2, 3, 60, 61, 62, 63] && t.reg vf == 0 && t.pulse == some .renderReq) = true := by decide
/-- T5.1, `clip`. -/
theorem test_drw_clip : execs (.drwVxVyN 0 1 1) { sprite 0xFF 60 0 with params := { defaultParams with colWrap := .clip } }
    (fun t => litRow t 0 == [60, 61, 62, 63] && t.reg vf == 0) = true := by decide

/-! ### Keyboard and timers (T6) -/

/-- T6.1, T6.3. -/
theorem test_skpVx : after ({ (setKey s0 15 true) with v := (s0.setReg 1 15).v }) 0xE19E (fun t => t.pc == 0x204 && t.key 15) = true ∧
    after (s0.setReg 1 15) 0xE19E (fun t => t.pc == 0x202) = true := by decide
/-- T6.4. -/
theorem test_skpVx_fault : faultOf (s0.setReg 1 16) 0xE19E = some (.keyOutOfRange 16) := by decide
/-- T6.2, T6.3. -/
theorem test_sknpVx : after ({ (setKey s0 15 true) with v := (s0.setReg 1 15).v }) 0xE1A1 (fun t => t.pc == 0x202) = true ∧
    after (s0.setReg 1 15) 0xE1A1 (fun t => t.pc == 0x204) = true := by decide
/-- T6.4. -/
theorem test_sknpVx_fault : faultOf (s0.setReg 1 16) 0xE1A1 = some (.keyOutOfRange 16) := by decide
/-- T6.5. -/
theorem test_ldVxK_waits : after { s0 with dt := 1, st := 1 } 0xF50A (fun t =>
    t.pc == 0x200 && t.reg 5 == 0 && t.dt == 0 && t.st == 0) = true := by decide
/-- T6.6. -/
theorem test_ldVxK_takes : after { setKey (setKey s0 3 true) 12 true with dt := 5 } 0xF50A (fun t =>
    t.reg 5 == 3 && t.keys == allKeysUp && t.pc == 0x202 && t.dt == 4) = true := by decide
/-- T6.8. -/
theorem test_ldVxDt : after { s0 with dt := 1 } 0xF107 (fun t => t.reg 1 == 1 && t.dt == 0) = true := by decide
/-- T6.10, T6.9. -/
theorem test_ldDtVx : after (s0.setReg 0 255) 0xF015 (fun t => t.dt == 254) = true ∧
    after { s0 with dt := 9 } 0xF015 (fun t => t.dt == 0) = true := by decide
/-- T6.11. -/
theorem test_ldStVx : after (s0.setReg 0 1) 0xF018 (fun t => t.st == 0) = true := by decide

/-! ### Reset and the host (T7) -/

theorem test_run_idle : hostControl .run powerOn = .fault .noProgramLoaded := rfl
theorem test_load_oversize : hostControl (.load (List.replicate 3585 0)) s0 = .fault (.memoryOutOfRange 4096) := by
  show loadProgram _ _ = _
  simp only [loadProgram, List.length_replicate]
  rfl
theorem test_accessors : getRegister s0 16 = .error (.registerIndexOutOfRange 16) ∧
    (setRegister s0 3 0x1FF).toOption.map (fun t => t.reg 3) = some 0xFF := by decide
/-- T7.8: reset puts FONT back. -/
theorem test_reset_font : (s0.putByte 0x050 0).byteAt 0x050 = 0 ∧
    (afterCall s0 (hostControl .reset (s0.putByte 0x050 0))).1.byteAt 0x050 = 0xF0 := by decide

/-! ### Witnesses: for each obligation with hypotheses, what meets them, clause by clause at the boundary -/

/-- `s0` with the word placed at PC. -/
abbrev placed (w : Nat) (s : State := s0) : State := s.withFetchWord 16 w

/-- A state whose next fetch gives `w` and whose next step completes: the hypotheses of the statements about every step. -/
abbrev stepsWith (s : State) (w : Word) (p : State → Bool := fun _ => true) : Prop :=
  fetch s = .ok w ∧ (match step s with | .next t => p t | .fault _ => false | .refused _ => false) = true

theorem witness_DecodeInvertsEncode : (Instr.sys 0x0E1).wellFormed = true ∧ (Instr.sys 0xFFF).wellFormed = true ∧
    (Instr.drwVxVyN 0xF 0xF 0xF).wellFormed = true := by decide

theorem witness_EncodeInvertsDecode : decodeWord 0x0000 = some (.sys 0) ∧ decodeWord 0xFF65 = some (.ldVxMem 0xF) := by decide

theorem witness_StepRunsDecodedInstruction :
    powerOn.run = .idle ∧
    (({ s0 with pc := 0x1000 } : State).run ≠ .idle ∧ 4095 < ({ s0 with pc := 0x1000 } : State).pc.toNat) ∧
    (({ s0 with pc := 0xFFF } : State).run ≠ .idle ∧ ({ s0 with pc := 0xFFF } : State).pc.toNat = 4095) ∧
    ((placed 0x6A12 { s0 with pc := 0xFFE }).run ≠ .idle ∧ (placed 0x6A12 { s0 with pc := 0xFFE }).pc.toNat ≤ 0xFFE ∧
      decode [(placed 0x6A12 { s0 with pc := 0xFFE }).byteAt 0xFFE, (placed 0x6A12 { s0 with pc := 0xFFE }).byteAt 0xFFF] =
        .ok (.ldVxKk 0xA 0x12, [])) := by decide

theorem witness_UnrecognizedWordIsNoOp :
    (placed 0x5121 { s0 with pc := 0xFFE }).run ≠ .idle ∧ (placed 0x5121 { s0 with pc := 0xFFE }).pc.toNat ≤ 0xFFE ∧
    (0x5121#16 = (placed 0x5121 { s0 with pc := 0xFFE }).byteAt 0xFFE ++ (placed 0x5121 { s0 with pc := 0xFFE }).byteAt 0xFFF) ∧
    decodeWord 0x5121 = none := by decide

/-- A state in which step and `exec_word` agree; and words that complete in `idle`, at a PC where no fetch can be made, decoded
and not. -/
theorem witness_ExecWordIsStepWithoutFetch : s0.run ≠ .idle ∧ fetch s0 = .ok 0x0000 ∧
    powerOn.run = .idle ∧ ([0x6A12, 0x1345, 0x3000, 0x5121].all fun w =>
      (afterCall s0 (hostControl (.execWord w) { powerOn with pc := 0xFFFE })).2.isNone) = true := by decide

/-- For PcAfterEveryCycle, TimersTickEveryCycle, NoStepChangesImageOrRun and PulsesOfAStep: a step of each kind completes. -/
theorem witness_PcAfterEveryCycle :
    (∀ w ∈ [0x0123, 0x1345, 0x2206, 0xBFFF, 0x3100, 0x4100, 0x5120, 0x9120, 0xE19E, 0xE1A1, 0xF10A, 0x6A12, 0x5121],
      completes (placed w) = true) ∧
    stepsWith (placed 0x00EE { s0 with sp := 1 }) 0x00EE ∧ stepsWith (placed 0xF10A (setKey s0 15 true)) 0xF10A := by decide

theorem witness_TimersTickEveryCycle :
    stepsWith (placed 0xF015 (s0.setReg 0 255)) 0xF015 ∧ stepsWith (placed 0xF018) 0xF018 ∧
    stepsWith (placed 0xF107 { s0 with dt := 1 }) 0xF107 ∧ stepsWith (placed 0x1200 { s0 with dt := 255 }) 0x1200 := by decide

theorem witness_SysAndJpJump :
    ((0x0123#16 &&& 0xF000) = 0x0000 ∧ 0x0123#16 ≠ 0x00E0 ∧ 0x0123#16 ≠ 0x00EE) ∧ (0x1345#16 &&& 0xF000) = 0x1000 ∧
    s0.run ≠ .idle ∧ 0xFFE < (0xFFF#12).toNat := by decide

theorem witness_CallPushesItsOwnAddress :
    ({ s0 with sp := 14 } : State).sp.val < 15 ∧ ({ s0 with sp := 15 } : State).sp.val = 15 := by decide

theorem witness_RetPopsIntoPc : 0 < ({ s0 with sp := 1 } : State).sp.val ∧ s0.sp.val = 0 := by decide

theorem witness_ReturnLandsOnTheCall :
    execs (.call 0x206) { s0 with pc := 0x202 } (fun t => t.sp == 1 && t.slot 1 == 0x202) = true ∧
    execs .ret (execState (.call 0x206) { s0 with pc := 0x202 }) (fun w => w.pc == 0x202 && w.sp == 0) = true := by decide

theorem witness_RegisterSkips : (0x5121#16 &&& 0xF000) = 0x5000 ∧ (0x5121#16 &&& 0x000F) ≠ 0 ∧
    (0x912F#16 &&& 0xF000) = 0x9000 ∧ (0x912F#16 &&& 0x000F) ≠ 0 := by decide

/-- A sum of 0xFFF, where the second byte is missing, and one of 0x1000, where the first is. -/
theorem witness_IndexedJump : s0.run ≠ .idle ∧
    execs (.jpV0Nnn 0xFFF) s0 (fun t => decide (0xFFE < t.pc.toNat) && t.pc == 0xFFF) = true ∧
    execs (.jpV0Nnn 0xFFF) (s0.setReg 0 1) (fun t => decide (0xFFE < t.pc.toNat) && t.pc == 0x1000) = true := by decide

theorem witness_SelfJumpCountsTimersDown :
    (placed 0x1200 { s0 with dt := 3, st := 1 }).run ≠ .idle ∧ (placed 0x1200 { s0 with dt := 3, st := 1 }).pcSet = false ∧
    (placed 0x1200 { s0 with dt := 3, st := 1 }).pulse = none ∧ (placed 0x1200 { s0 with dt := 3, st := 1 }).pc.toNat ≤ 0xFFE ∧
    ((placed 0x1200 { s0 with dt := 3, st := 1 }).byteAt 0x200 ++ (placed 0x1200 { s0 with dt := 3, st := 1 }).byteAt 0x201 =
      0x1000#16 ||| (placed 0x1200 { s0 with dt := 3, st := 1 }).pc) := by decide

theorem witness_AddImmediateWraps :
    (3#4 ≠ vf) ∧ execs (.ldVxKk 3 0) s0 (fun t => execs (.addVxKk 3 0xC8) t fun u => execs (.addVxKk 3 0xC8) u fun w =>
      w.reg 3 == 0x90) = true := by decide

/-- For AddSetsCarry, SubtractionsSetNoBorrow and ShiftsMoveOneBitIntoVf: a destination that is not VF. -/
theorem witness_AddSetsCarry : 0xE#4 ≠ vf ∧
    execs (.addVxVy 0xE 1) ((s0.setReg 0xE 0xFF).setReg 1 1) (fun t => t.reg vf == 1) = true := by decide

theorem witness_RandomIsMaskedByKk : (0x3C#8).getLsbD 0 = false ∧ (0x3C#8).getLsbD 7 = false := by decide

theorem witness_DecimalDigitsAreStored :
    dataAddress { s0 with iReg := 0xFFD } 2 ≤ 4095 ∧ 4095 < dataAddress { s0 with iReg := 0xFFE } 2 := by decide

theorem witness_RegistersAreStored :
    dataAddress { s0 with iReg := 0xFF0 } (0xF#4).toNat ≤ 4095 ∧ 4095 < dataAddress { s0 with iReg := 0xFF1 } (0xF#4).toNat ∧
    (0xF#4).toNat ≤ (0xF#4).toNat := by decide

theorem witness_RegistersAreLoaded :
    dataAddress { s0 with iReg := 0xFFF } (0#4).toNat ≤ 4095 ∧ 4095 < dataAddress { s0 with iReg := 0x1000 } (0#4).toNat ∧
    (0#4).toNat < (1#4).toNat := by decide

theorem witness_MemoryReadsLastWrite : (4095 : Nat) ≤ 4095 ∧ 4095 < (4096 : Nat) := by decide

/-- `Fx55` and `Fx33` into code, each as an execute phase and as a fetched cycle, read at the ends of the range stored to. -/
theorem witness_StoredCodeIsFetched : (0x201#16).toNat ≤ 0xFFE ∧ (0xFFE#16).toNat ≤ 0xFFE ∧
    execs (.ldMemVx 1) ({ s0 with iReg := 0x202 }) (fun _ => true) = true ∧
    stepsWith (placed 0xF155 { s0 with iReg := 0x202 }) 0xF155 ∧ decodeWord 0xF155 = some (.ldMemVx 1) ∧
    execs (.ldBVx 1) ({ s0 with iReg := 0xFFD }) (fun _ => true) = true ∧
    stepsWith (placed 0xF133 { s0 with iReg := 0xFFD }) 0xF133 ∧ decodeWord 0xF133 = some (.ldBVx 1) := by decide

/-- One sprite byte at the last address is drawn; two from there fault; the pixel (0, 0) is covered and (1, 0) is not. -/
theorem witness_DrawTogglesCoveredPixels :
    (({ s0 with iReg := 0xFFF } : State).iReg.toNat + (1#4).toNat - 1 ≤ 4095) ∧
    (2#4 ≠ 0 ∧ 4095 < ({ s0 with iReg := 0xFFF } : State).iReg.toNat + (2#4).toNat - 1) ∧
    SpriteCovers (sprite 0x80 0 0) 0 1 1 0 0 ∧ ¬ SpriteCovers (sprite 0x80 0 0) 0 1 1 1 0 := by
  refine ⟨by decide, by decide, ⟨0, 0, by decide, by decide, by decide, rfl, by decide⟩, ?_⟩
  rintro ⟨dr, dc, h, -, hr, -⟩
  have h0 : dr = 0 := by simp at h; omega
  subst h0
  revert hr
  decide

/-- A pixel on under the sprite, and none on. -/
theorem witness_DrawTogglesCoveredPixels_collision :
    (∃ r c, SpriteCovers { sprite 0x80 0 0 with display := Display.clear.setPixel 0 0 true } 0 1 1 r c ∧
      (Display.clear.setPixel 0 0 true).pixel r c = true) ∧
    (∀ r c, SpriteCovers (sprite 0x80 0 0) 0 1 1 r c → (sprite 0x80 0 0).display.pixel r c = false) := by
  refine ⟨⟨0, 0, ⟨0, 0, by decide, by decide, by decide, rfl, by decide⟩, by decide⟩, fun r c _ => ?_⟩
  exact Display.pixel_clear r c

/-- With x and y other than F, and with x = F where VF already holds what the draw leaves in it. -/
theorem witness_DrawTwiceRestores :
    execs (.drwVxVyN 0 1 1) (sprite 0xFF 60 0) (fun t => t.reg 0 == 60 && t.reg 1 == 0 &&
      execs (.drwVxVyN 0 1 1) t fun u => u.reg vf == 1) = true ∧
    execs (.drwVxVyN vf 1 1) (sprite 0x80 2 0) (fun t => t.reg vf == (sprite 0x80 2 0).reg vf &&
      execs (.drwVxVyN vf 1 1) t fun _ => true) = true := by decide

theorem witness_KeySkips : ((s0.setReg 1 15).reg 1).toNat = (15#4).toNat ∧ 15 < ((s0.setReg 1 16).reg 1).toNat := by decide

/-- Keys 3 and 12 down, with the given parameter table. -/
def keysDown (table : List (Vector Bool 16 × Nibble)) : State :=
  { setKey (setKey s0 3 true) 12 true with params := { defaultParams with keySelect := table } }

/-- No key down; keys down and no entry for them; a first entry for them, after another set's and before a second one, that
names a down key; one that names a key that is up. -/
theorem witness_KeyWaitTakesADownKey :
    (∀ k, s0.key k = false) ∧
    ((keysDown []).key 12 = true ∧ ∀ e ∈ (keysDown [(allKeysUp, 12)]).params.keySelect, e.1 ≠ (keysDown []).keys) ∧
    ((keysDown [(allKeysUp, 3), ((keysDown []).keys, 12), ((keysDown []).keys, 3)]).params.keySelect =
        [(allKeysUp, 3)] ++ ((keysDown []).keys, 12) :: [((keysDown []).keys, 3)] ∧
      (∀ e ∈ [((allKeysUp, 3) : Vector Bool 16 × Nibble)], e.1 ≠ (keysDown []).keys)) ∧
    (keysDown [((keysDown []).keys, 5)]).key 5 = false := by decide

/-- The key taken in the last three cases: the lowest, 12 as named, the lowest. -/
theorem test_ldVxK_keySelect :
    execs (.ldVxK 0) (keysDown [(allKeysUp, 12)]) (fun t => t.reg 0 == 3) = true ∧
    execs (.ldVxK 0) (keysDown [(allKeysUp, 3), ((keysDown []).keys, 12), ((keysDown []).keys, 3)])
      (fun t => t.reg 0 == 12) = true ∧
    execs (.ldVxK 0) (keysDown [((keysDown []).keys, 5)]) (fun t => t.reg 0 == 3) = true := by decide

theorem witness_KeyWaitPolls :
    (placed 0xF50A).run ≠ .idle ∧ (placed 0xF50A).pcSet = false ∧ (placed 0xF50A).pulse = none ∧
    (placed 0xF50A).pc.toNat ≤ 0xFFE ∧
    decodeWord ((placed 0xF50A).byteAt 0x200 ++ (placed 0xF50A).byteAt 0x201) = some (.ldVxK 5) ∧
    (∀ k, (placed 0xF50A).key k = false) := by decide

/-- Words that are neither a call nor a return, and neither a clear nor a draw. -/
theorem witness_OnlyCallAndRetChangeTheStack :
    stepsWith (placed 0x6A12) 0x6A12 ∧ decodeWord 0x6A12 = some (.ldVxKk 0xA 0x12) := by decide

theorem witness_OnlyClsAndDrwChangePixels :
    stepsWith (placed 0x1345) 0x1345 ∧ decodeWord 0x1345 = some (.jp 0x345) := by decide

theorem witness_OnlyStoresChangeMemory :
    stepsWith (placed 0xF033 (({ s0 with iReg := 0x300 } : State).setReg 0 254)) 0xF033
      (fun t => t.byteAt 0x302 != (placed 0xF033).byteAt 0x302) ∧
    stepsWith (placed 0xFF55 (({ s0 with iReg := 0x300 } : State).setReg vf 1)) 0xFF55
      (fun t => t.byteAt 0x30F != (placed 0xFF55).byteAt 0x30F) := by decide

theorem witness_OnlyKeyWaitChangesKeys :
    stepsWith (placed 0xF50A (setKey s0 15 true)) 0xF50A (fun t => t.key 15 != (setKey s0 15 true).key 15) := by decide

theorem witness_OnlyThreeInstructionsChangeI :
    stepsWith (placed 0xA345) 0xA345 (fun t => t.iReg != s0.iReg) ∧
    stepsWith (placed 0xF11E (s0.setReg 1 1)) 0xF11E (fun t => t.iReg != s0.iReg) ∧
    stepsWith (placed 0xF129) 0xF129 (fun t => t.iReg != s0.iReg) := by decide

theorem witness_NoStepChangesImageOrRun : completes s0 = true := by decide

theorem witness_WhoChangesVf :
    stepsWith (placed 0x8124 ((s0.setReg 1 0xFF).setReg 2 1)) 0x8124 (fun t => t.reg vf != s0.reg vf) ∧
    stepsWith (placed 0x6F07) 0x6F07 (fun t => t.reg vf != s0.reg vf) ∧
    stepsWith (placed 0xFF65 { s0 with iReg := 0x050 }) 0xFF65 (fun t => t.reg vf != s0.reg vf) := by decide

theorem witness_FaultsOfEachInstruction :
    Sys2Proof.Machine.exec (.call 0) { s0 with sp := 15 } = .fault (.stackOverflow 15) ∧
    Sys2Proof.Machine.exec .ret s0 = .fault (.stackUnderflow 0) ∧
    Sys2Proof.Machine.exec (.skpVx 1) (s0.setReg 1 16) = .fault (.keyOutOfRange 16) ∧
    Sys2Proof.Machine.exec (.sknpVx 1) (s0.setReg 1 255) = .fault (.keyOutOfRange 255) ∧
    Sys2Proof.Machine.exec (.ldBVx 0) { s0 with iReg := 0xFFE } = .fault (.memoryOutOfRange 4096) ∧
    Sys2Proof.Machine.exec (.ldVxMem 0) { s0 with iReg := 0x1234 } = .fault (.memoryOutOfRange 0x1234) ∧
    Sys2Proof.Machine.exec (.drwVxVyN 0 0 2) { s0 with iReg := 0xFFF } = .fault (.memoryOutOfRange 4096) :=
  ⟨rfl, rfl, rfl, rfl, rfl, rfl, rfl⟩

theorem witness_PulsesOfAStep :
    stepsWith (placed 0xD000) 0xD000 (fun t => t.pulse == some .renderReq) ∧
    stepsWith (placed 0x5121) 0x5121 (fun t => t.pulse == some (.decodeFail 0x5121 0x200)) := by decide

theorem witness_FaultRepeats : step { s0 with pc := 0x1000, dt := 5 } = .fault (.memoryOutOfRange 0x1000) := rfl

/-- A canonical memory with entries, and a step that stores. -/
theorem witness_StepKeepsMemoryCanonical :
    (placed 0xF033 { s0 with iReg := 0xFFD }).MemoryCanonical ∧
    completes (placed 0xF033 { s0 with iReg := 0xFFD }) = true := by
  refine ⟨?_, by decide⟩
  show Memory.wf _ _
  decide

theorem s0_betweenCycles : s0.BetweenCycles :=
  ⟨by show Memory.wf _ _; decide, fun img h => (by cases h; decide), fun _ h => (by cases h), rfl⟩

theorem witness_HostMovesKeepBetweenCycles :
    s0.BetweenCycles ∧ (∀ m ∈ [HostMove.control .run, .control .step, .control .reset, .control (.load [0x12, 0x00]),
      .control (.execWord 0x6A12), .setKey 3 true, .setRegister 3 0x1FF, .setStack 15 0x202, .writeMemory 4095 1],
      (match hostMove m s0 with | .next _ => true | .fault _ => false | .refused _ => false) = true) :=
  ⟨s0_betweenCycles, by decide⟩

theorem witness_StepKeepsPcBounded :
    ({ placed 0x00EE with sp := 1, stack := s0.stack.set 1 0xFFE } : State).PcBounded ∧
    completes { placed 0x00EE with sp := 1, stack := s0.stack.set 1 0xFFE } = true :=
  ⟨⟨by decide, by decide⟩, by decide⟩

theorem witness_LoadResetsAndPlacesTheImage :
    (List.replicate 3584 (0xAB : Byte)).length ≤ 3584 ∧ 3584 < (List.replicate 3585 (0xAB : Byte)).length := by
  rw [List.length_replicate, List.length_replicate]
  decide

theorem witness_ResetForgetsTheRun_image : ∃ s : State, s.run ≠ .idle ∧ s.image = some [0x12, 0x00] ∧
    ([0x12, 0x00] : List Byte).length ≤ 3584 :=
  ⟨{ s0 with image := some [0x12, 0x00], run := .paused }, by decide, rfl, by decide⟩

theorem witness_ResetForgetsTheRun :
    s0.run ≠ .idle ∧ ({ s0.setReg 1 9 with run := .paused, pc := 0x300, dt := 4 } : State).run ≠ .idle ∧ s0.image ≠ none ∧
    ({ s0.setReg 1 9 with run := .paused, pc := 0x300, dt := 4 } : State).image = s0.image ∧
    ({ s0.setReg 1 9 with run := .paused, pc := 0x300, dt := 4 } : State).keys = s0.keys ∧
    ({ s0.setReg 1 9 with run := .paused, pc := 0x300, dt := 4 } : State).params = s0.params ∧
    ({ s0.setReg 1 9 with run := .paused, pc := 0x300, dt := 4 } : State).draws = s0.draws := by
  refine ⟨by decide, by decide, by decide, rfl, rfl, rfl, rfl⟩

theorem witness_RunControlTable : powerOn.run = .idle ∧ s0.run = .ready := by decide

theorem witness_HostAccessorsAreBoundsChecked : (15 : Nat) ≤ 15 ∧ 15 < (16 : Nat) := by decide

theorem witness_PlacedWordRunsNext : (65535 : Nat) < 65536 ∧ ({ s0 with pc := 0xFFE } : State).run ≠ .idle ∧
    ({ s0 with pc := 0xFFE } : State).pc.toNat ≤ 0xFFE := by decide

end Sys2Proof.Tests
end

section
/-! The memory primitives of 20_memory.md: the two answers of `memWrite`, beside the model's `memRead_ok` and
`memRead_fault`, and the obligation about both. -/

namespace Sys2Proof.Machine

theorem memWrite_ok {s : State} {a : Nat} (v : Byte) (h : a < memSize) : memWrite s a v = .ok (s.putByte a v) :=
  if_pos h

theorem memWrite_fault {s : State} {a : Nat} (v : Byte) (h : memSize ≤ a) :
    memWrite s a v = .error (.memoryOutOfRange a) :=
  if_neg (by omega)

/-- A read right after a write to the same address gives the byte written. -/
theorem memRead_putByte_same (s : State) {a : Nat} (v : Byte) (h : a < memSize) :
    memRead (s.putByte a v) a = .ok v := by
  rw [memRead_ok h, State.byteAt_putByte_same]

/-- Settles O30, by the two cases of the address: inside memory a write is `putByte`, whose frame is the one byte. -/
theorem memoryReadsLastWrite : Obligations.MemoryReadsLastWrite := by
  intro s a v
  constructor
  · intro ha
    have inside : a < memSize := Nat.lt_succ_of_le ha
    exact ⟨memRead_ok inside, s.putByte a v, memWrite_ok v inside, memRead_putByte_same s v inside,
      unchanged_putByte s a v⟩
  · intro ha
    have outside : memSize ≤ a := ha
    exact ⟨memRead_fault outside, memWrite_fault v outside⟩

end Sys2Proof.Machine
end

section
/-! The indexed jump of 41_control_flow.md R98: its row of the decoder, its target as a number, and the obligation. -/

namespace Sys2Proof

/-- The mask of a row that only the opcode class selects keeps the class. -/
theorem fieldOp_and_classMask (w : Word) : fieldOp (w &&& 0xF000) = fieldOp w := by
  rw [fieldOp, BitVec.extractLsb'_and]
  exact BitVec.and_allOnes

/-- A word that matches a class row is of the row's class. -/
theorem fieldOp_of_classRow {w m : Word} (h : w &&& 0xF000 = m) : fieldOp w = fieldOp m := by
  rw [← h, fieldOp_and_classMask]

theorem decodeWord_classB {w : Word} (h : fieldOp w = 0xB#4) : decodeWord w = some (.jpV0Nnn (fieldNnn w)) := by
  rw [decodeWord, h]
  rfl

namespace Machine

theorem recognized_classB : Recognized 0xF000 0xB000 (fun w => .jpV0Nnn (fieldNnn w)) :=
  fun _ h => decodeWord_classB (fieldOp_of_classRow h)

theorem exec_jpV0Nnn (nnn : Addr12) (s : State) :
    Sys2Proof.Machine.exec (.jpV0Nnn nnn) s = .next (s.jump (indexedTarget s nnn)) := rfl

theorem toNat_immAddress (nnn : Addr12) : (immAddress nnn).toNat = nnn.toNat :=
  BitVec.toNat_setWidth_of_le (by decide)

theorem toNat_wordOfByte (b : Byte) : (wordOfByte b).toNat = b.toNat :=
  BitVec.toNat_setWidth_of_le (by decide)

/-- A 12-bit and an 8-bit number have no 16-bit overflow, so the target is their sum as numbers. -/
theorem toNat_indexedTarget (s : State) (nnn : Addr12) :
    (indexedTarget s nnn).toNat = nnn.toNat + (s.reg 0).toNat := by
  have noWrap : (immAddress nnn).toNat + (wordOfByte (s.reg 0)).toNat < 2 ^ 16 := by
    rw [toNat_immAddress, toNat_wordOfByte]
    omega
  rw [indexedTarget, BitVec.toNat_add_of_lt noWrap, toNat_immAddress, toNat_wordOfByte]

/-- Settles O17: the target is the sum as a number, and above 0xFFE one of the two bytes of the next fetch does not exist. -/
theorem indexedJump : Obligations.IndexedJump := by
  refine ⟨recognized_classB, fun nnn s => ?_⟩
  have target : (s.jump (indexedTarget s nnn)).pc.toNat = nnn.toNat + (s.reg 0).toNat := toNat_indexedTarget s nnn
  refine ⟨s.jump (indexedTarget s nnn), exec_jpV0Nnn nnn s, target, ?bound, rfl, unchanged_jump s _, ?nextFetch⟩
  case bound => omega
  case nextFetch =>
    intro loaded above
    have outside : memSize < (s.jump (indexedTarget s nnn)).pc.toNat + 2 := by
      simp only [memSize]
      omega
    exact step_fetch_fault loaded outside

end Machine
end Sys2Proof
end

section
/-! The decoder rows of 42_arithmetic_logic.md that load, add an immediate or combine bits: classes 6 and 7, which the
opcode class alone selects, and the rows of class 8, which the low nibble selects. -/

namespace Sys2Proof

theorem decodeWord_class6 {w : Word} (h : fieldOp w = 0x6#4) :
    decodeWord w = some (.ldVxKk (fieldX w) (fieldKk w)) := by
  rw [decodeWord, h]
  rfl

theorem decodeWord_class7 {w : Word} (h : fieldOp w = 0x7#4) :
    decodeWord w = some (.addVxKk (fieldX w) (fieldKk w)) := by
  rw [decodeWord, h]
  rfl

theorem decodeWord_class8 {w : Word} (h : fieldOp w = 0x8#4) : decodeWord w = decodeClass8 w := by
  rw [decodeWord, h]
  rfl

/-- The mask of a row that the class and the low nibble select keeps the class. -/
theorem fieldOp_and_selectorMask (w : Word) : fieldOp (w &&& 0xF00F) = fieldOp w := by
  rw [fieldOp, BitVec.extractLsb'_and]
  exact BitVec.and_allOnes

/-- It keeps the low nibble too. -/
theorem fieldN_and_selectorMask (w : Word) : fieldN (w &&& 0xF00F) = fieldN w := by
  rw [fieldN, BitVec.extractLsb'_and]
  exact BitVec.and_allOnes

namespace Machine

theorem recognized_class6 : Recognized 0xF000 0x6000 (fun w => .ldVxKk (fieldX w) (fieldKk w)) :=
  fun _ h => decodeWord_class6 (fieldOp_of_classRow h)

theorem recognized_class7 : Recognized 0xF000 0x7000 (fun w => .addVxKk (fieldX w) (fieldKk w)) :=
  fun _ h => decodeWord_class7 (fieldOp_of_classRow h)

/-- A row of class 8 is recognized when the class's second level answers it for the row's low nibble. -/
theorem recognized_class8 {m : Word} {build : Word → Instr} (class8 : fieldOp m = 0x8#4)
    (selected : ∀ w, fieldN w = fieldN m → decodeClass8 w = some (build w)) : Recognized 0xF00F m build := by
  rintro w rfl
  rw [fieldOp_and_selectorMask] at class8
  rw [decodeWord_class8 class8]
  exact selected w (fieldN_and_selectorMask w).symm

theorem recognized_ldVxVy : Recognized 0xF00F 0x8000 (fun w => .ldVxVy (fieldX w) (fieldY w)) :=
  recognized_class8 rfl fun w h => by rw [decodeClass8, h]; rfl

theorem recognized_orVxVy : Recognized 0xF00F 0x8001 (fun w => .orVxVy (fieldX w) (fieldY w)) :=
  recognized_class8 rfl fun w h => by rw [decodeClass8, h]; rfl

theorem recognized_andVxVy : Recognized 0xF00F 0x8002 (fun w => .andVxVy (fieldX w) (fieldY w)) :=
  recognized_class8 rfl fun w h => by rw [decodeClass8, h]; rfl

theorem recognized_xorVxVy : Recognized 0xF00F 0x8003 (fun w => .xorVxVy (fieldX w) (fieldY w)) :=
  recognized_class8 rfl fun w h => by rw [decodeClass8, h]; rfl

end Machine
end Sys2Proof
end

section
/-! Loads, the immediate add and the three logic instructions (42_arithmetic_logic.md R111 to R116). Each completes in every
state with one `setReg`, so what it leaves in `V[x]` and what it leaves unchanged are the laws of `setReg`. -/

namespace Sys2Proof.Machine

theorem exec_ldVxKk (x : Nibble) (kk : Byte) (s : State) :
    Sys2Proof.Machine.exec (.ldVxKk x kk) s = .next (s.setReg x kk) := rfl

theorem exec_addVxKk (x : Nibble) (kk : Byte) (s : State) :
    Sys2Proof.Machine.exec (.addVxKk x kk) s = .next (s.setReg x (s.reg x + kk)) := rfl

theorem exec_ldVxVy (x y : Nibble) (s : State) :
    Sys2Proof.Machine.exec (.ldVxVy x y) s = .next (s.setReg x (s.reg y)) := rfl

theorem exec_orVxVy (x y : Nibble) (s : State) :
    Sys2Proof.Machine.exec (.orVxVy x y) s = .next (s.setReg x (s.reg x ||| s.reg y)) := rfl

theorem exec_andVxVy (x y : Nibble) (s : State) :
    Sys2Proof.Machine.exec (.andVxVy x y) s = .next (s.setReg x (s.reg x &&& s.reg y)) := rfl

theorem exec_xorVxVy (x y : Nibble) (s : State) :
    Sys2Proof.Machine.exec (.xorVxVy x y) s = .next (s.setReg x (s.reg x ^^^ s.reg y)) := rfl

/-- Settles O19: both loads are one `setReg` of the byte loaded. -/
theorem loadsIntoRegister : Obligations.LoadsIntoRegister := by
  refine ⟨recognized_class6, recognized_ldVxVy, fun x y kk s => ⟨?immediate, ?register⟩⟩
  case immediate =>
    exact ⟨_, exec_ldVxKk x kk s, State.reg_setReg_same s x _, unchanged_setReg s x _⟩
  case register =>
    exact ⟨_, exec_ldVxVy x y s, State.reg_setReg_same s x _, unchanged_setReg s x _⟩

/-- What a completed `6xkk` leaves in `V[x]`. -/
theorem reg_of_ldVxKk {x : Nibble} {kk : Byte} {s t : State}
    (h : Sys2Proof.Machine.exec (.ldVxKk x kk) s = .next t) : t.reg x = kk := by
  cases h
  exact State.reg_setReg_same s x kk

/-- What a completed `7xkk` leaves in `V[x]`: a byte's sum drops the carry. -/
theorem toNat_reg_of_addVxKk {x : Nibble} {kk : Byte} {s t : State}
    (h : Sys2Proof.Machine.exec (.addVxKk x kk) s = .next t) :
    (t.reg x).toNat = ((s.reg x).toNat + kk.toNat) % 256 := by
  cases h
  rw [State.reg_setReg_same, BitVec.toNat_add]

/-- Settles O20: one `setReg` of the sum; the double add is the sum law used twice, from the 0 that `6x00` loads. -/
theorem addImmediateWraps : Obligations.AddImmediateWraps := by
  refine ⟨recognized_class7, fun x kk s => ?single, fun x kk s t u w load firstAdd secondAdd => ?double⟩
  case single =>
    exact ⟨_, exec_addVxKk x kk s, toNat_reg_of_addVxKk (exec_addVxKk x kk s),
      fun notVf => State.reg_setReg_other s _ (Ne.symm notVf), unchanged_setReg s x _⟩
  case double =>
    have loaded : (t.reg x).toNat = 0 := congrArg BitVec.toNat (reg_of_ldVxKk load)
    calc (w.reg x).toNat
        = (((t.reg x).toNat + kk.toNat) % 256 + kk.toNat) % 256 := by
          rw [toNat_reg_of_addVxKk secondAdd, toNat_reg_of_addVxKk firstAdd]
      _ = (2 * kk.toNat) % 256 := by omega

/-- Settles O21: each is one `setReg` of a bitwise operation, whose bits are the bits' operation; equal operands cancel in
XOR. -/
theorem logicIsBitwise : Obligations.LogicIsBitwise := by
  refine ⟨recognized_orVxVy, recognized_andVxVy, recognized_xorVxVy, fun x y s => ⟨?or, ?and, ?xor⟩⟩
  case or =>
    refine ⟨_, exec_orVxVy x y s, unchanged_setReg s x _, fun j _ => ?_⟩
    rw [State.reg_setReg_same, BitVec.getLsbD_or]
  case and =>
    refine ⟨_, exec_andVxVy x y s, unchanged_setReg s x _, fun j _ => ?_⟩
    rw [State.reg_setReg_same, BitVec.getLsbD_and]
  case xor =>
    refine ⟨_, exec_xorVxVy x y s, unchanged_setReg s x _, fun j _ => ?bits, ?selfCancels⟩
    case bits => rw [State.reg_setReg_same, BitVec.getLsbD_xor]
    case selfCancels =>
      rintro rfl
      rw [State.reg_setReg_same, BitVec.xor_self]
      rfl

end Sys2Proof.Machine
end

section
/-! The decoder rows of 43_index_memory.md that write I: class A, which the opcode class alone selects, and two rows of
class F, which the low byte selects. -/

namespace Sys2Proof

theorem decodeWord_classA {w : Word} (h : fieldOp w = 0xA#4) : decodeWord w = some (.ldINnn (fieldNnn w)) := by
  rw [decodeWord, h]
  rfl

theorem decodeWord_classF {w : Word} (h : fieldOp w = 0xF#4) : decodeWord w = decodeClassF w := by
  rw [decodeWord, h]
  rfl

/-- The mask of a row that the class and the low byte select keeps the class. -/
theorem fieldOp_and_lowByteMask (w : Word) : fieldOp (w &&& 0xF0FF) = fieldOp w := by
  rw [fieldOp, BitVec.extractLsb'_and]
  exact BitVec.and_allOnes

/-- It keeps the low byte too. -/
theorem fieldKk_and_lowByteMask (w : Word) : fieldKk (w &&& 0xF0FF) = fieldKk w := by
  rw [fieldKk, BitVec.extractLsb'_and]
  exact BitVec.and_allOnes

namespace Machine

theorem recognized_classA : Recognized 0xF000 0xA000 (fun w => .ldINnn (fieldNnn w)) :=
  fun _ h => decodeWord_classA (fieldOp_of_classRow h)

/-- A row of class F is recognized when the class's second level answers it for the row's low byte. -/
theorem recognized_classF {m : Word} {build : Word → Instr} (classF : fieldOp m = 0xF#4)
    (selected : ∀ w, fieldKk w = fieldKk m → decodeClassF w = some (build w)) : Recognized 0xF0FF m build := by
  rintro w rfl
  rw [fieldOp_and_lowByteMask] at classF
  rw [decodeWord_classF classF]
  exact selected w (fieldKk_and_lowByteMask w).symm

theorem recognized_addIVx : Recognized 0xF0FF 0xF01E (fun w => .addIVx (fieldX w)) :=
  recognized_classF rfl fun w h => by rw [decodeClassF, h]; rfl

theorem recognized_ldFVx : Recognized 0xF0FF 0xF029 (fun w => .ldFVx (fieldX w)) :=
  recognized_classF rfl fun w h => by rw [decodeClassF, h]; rfl

end Machine
end Sys2Proof
end

section
/-! The three instructions with I as their destination (43_index_memory.md R130 to R132). Each completes in every state with
one `setI`, so what is left to say is the new I as a number. -/

namespace Sys2Proof.Machine

theorem exec_ldINnn (nnn : Addr12) (s : State) :
    Sys2Proof.Machine.exec (.ldINnn nnn) s = .next (s.setI (immAddress nnn)) := rfl

theorem exec_addIVx (x : Nibble) (s : State) :
    Sys2Proof.Machine.exec (.addIVx x) s = .next (s.setI (s.iReg + wordOfByte (s.reg x))) := rfl

theorem exec_ldFVx (x : Nibble) (s : State) :
    Sys2Proof.Machine.exec (.ldFVx x) s = .next (s.setI (fontAddress (s.reg x))) := rfl

/-- The largest glyph address, 0x54B for the byte 255, is a word, so nothing wraps. -/
theorem toNat_fontAddress (b : Byte) : (fontAddress b).toNat = 0x050 + 5 * b.toNat := by
  have noWrap : fontBase + 5 * b.toNat < 2 ^ 16 := by
    simp only [fontBase]
    omega
  rw [fontAddress, BitVec.toNat_ofNat, Nat.mod_eq_of_lt noWrap]

/-- Settles O26: each is one `setI`, whose frame is I alone; only the sum of `Fx1E` can pass 16 bits. -/
theorem writesOfI : Obligations.WritesOfI := by
  refine ⟨recognized_classA, recognized_addIVx, recognized_ldFVx, fun nnn x s => ⟨?immediate, ?sum, ?glyph⟩⟩
  case immediate =>
    exact ⟨_, exec_ldINnn nnn s, toNat_immAddress nnn, unchanged_setI s _⟩
  case sum =>
    refine ⟨_, exec_addIVx x s, ?_, unchanged_setI s _⟩
    rw [State.setI_iReg, BitVec.toNat_add, toNat_wordOfByte]
  case glyph =>
    exact ⟨_, exec_ldFVx x s, toNat_fontAddress _, unchanged_setI s _⟩

end Sys2Proof.Machine
end

section
/-! Decoding and encoding are inverse to each other (30_encoding.md sections 1 to 4): what each opcode class that no lemma
above names is decoded by, a word as the concatenation of its fields, and the two round trips. -/

namespace Sys2Proof

/-! ### The first level (R54, R55) -/

theorem decodeWord_class0 {w : Word} (h : fieldOp w = 0x0#4) : decodeWord w = decodeClass0 w := by
  rw [decodeWord, h]
  rfl

theorem decodeWord_class1 {w : Word} (h : fieldOp w = 0x1#4) : decodeWord w = some (.jp (fieldNnn w)) := by
  rw [decodeWord, h]
  rfl

theorem decodeWord_class2 {w : Word} (h : fieldOp w = 0x2#4) : decodeWord w = some (.call (fieldNnn w)) := by
  rw [decodeWord, h]
  rfl

theorem decodeWord_class3 {w : Word} (h : fieldOp w = 0x3#4) :
    decodeWord w = some (.seVxKk (fieldX w) (fieldKk w)) := by
  rw [decodeWord, h]
  rfl

theorem decodeWord_class4 {w : Word} (h : fieldOp w = 0x4#4) :
    decodeWord w = some (.sneVxKk (fieldX w) (fieldKk w)) := by
  rw [decodeWord, h]
  rfl

theorem decodeWord_class5 {w : Word} (h : fieldOp w = 0x5#4) :
    decodeWord w = if fieldN w = 0x0#4 then some (.seVxVy (fieldX w) (fieldY w)) else none := by
  rw [decodeWord, h]
  rfl

theorem decodeWord_class9 {w : Word} (h : fieldOp w = 0x9#4) :
    decodeWord w = if fieldN w = 0x0#4 then some (.sneVxVy (fieldX w) (fieldY w)) else none := by
  rw [decodeWord, h]
  rfl

theorem decodeWord_classC {w : Word} (h : fieldOp w = 0xC#4) :
    decodeWord w = some (.rndVxKk (fieldX w) (fieldKk w)) := by
  rw [decodeWord, h]
  rfl

theorem decodeWord_classD {w : Word} (h : fieldOp w = 0xD#4) :
    decodeWord w = some (.drwVxVyN (fieldX w) (fieldY w) (fieldN w)) := by
  rw [decodeWord, h]
  rfl

theorem decodeWord_classE {w : Word} (h : fieldOp w = 0xE#4) : decodeWord w = decodeClassE w := by
  rw [decodeWord, h]
  rfl

/-- The sixteen opcode classes. -/
theorem fieldOp_cases (w : Word) :
    fieldOp w = 0x0#4 ∨ fieldOp w = 0x1#4 ∨ fieldOp w = 0x2#4 ∨ fieldOp w = 0x3#4 ∨ fieldOp w = 0x4#4 ∨
    fieldOp w = 0x5#4 ∨ fieldOp w = 0x6#4 ∨ fieldOp w = 0x7#4 ∨ fieldOp w = 0x8#4 ∨ fieldOp w = 0x9#4 ∨
    fieldOp w = 0xA#4 ∨ fieldOp w = 0xB#4 ∨ fieldOp w = 0xC#4 ∨ fieldOp w = 0xD#4 ∨ fieldOp w = 0xE#4 ∨
    fieldOp w = 0xF#4 := by
  generalize fieldOp w = o
  revert o
  decide

/-! ### Decoding the encoding -/

/-- The class-0 words that are not `0nnn` are those of the two addresses that a well-formed `0nnn` does not have. -/
theorem decodeClass0_append (nnn : Addr12) (h : (Instr.sys nnn).wellFormed = true) :
    decodeClass0 (0x0#4 ++ nnn) = some (.sys nnn) := by
  simp only [Instr.wellFormed, Bool.and_eq_true, bne_iff_ne] at h
  obtain ⟨notCls, notRet⟩ := h
  have ne {c : Addr12} {w : Word} (hw : fieldNnn w = c) (hc : nnn ≠ c) : 0x0#4 ++ nnn ≠ w := by
    rintro rfl
    exact hc ((fieldNnn_op_nnn _ _).symm.trans hw)
  rw [decodeClass0, if_neg (ne (w := 0x0E0#16) rfl notCls), if_neg (ne (w := 0x0EE#16) rfl notRet), fieldNnn_op_nnn]

/-- The class of an encoding selects its row or its second level, and the fields of the row are the operands. -/
theorem decodeWord_encode (i : Instr) (h : i.wellFormed = true) : decodeWord (encode i) = some i := by
  cases i with
  | cls => rfl
  | ret => rfl
  | sys nnn => rw [encode, decodeWord_class0 (fieldOp_op_nnn _ _), decodeClass0_append nnn h]
  | jp nnn => simp [encode, decodeWord_class1]
  | call nnn => simp [encode, decodeWord_class2]
  | seVxKk x kk => simp [encode, decodeWord_class3]
  | sneVxKk x kk => simp [encode, decodeWord_class4]
  | seVxVy x y => simp [encode, decodeWord_class5]
  | ldVxKk x kk => simp [encode, decodeWord_class6]
  | addVxKk x kk => simp [encode, decodeWord_class7]
  | ldVxVy x y => simp [encode, decodeWord_class8, decodeClass8]
  | orVxVy x y => simp [encode, decodeWord_class8, decodeClass8]
  | andVxVy x y => simp [encode, decodeWord_class8, decodeClass8]
  | xorVxVy x y => simp [encode, decodeWord_class8, decodeClass8]
  | addVxVy x y => simp [encode, decodeWord_class8, decodeClass8]
  | subVxVy x y => simp [encode, decodeWord_class8, decodeClass8]
  | shrVx x y => simp [encode, decodeWord_class8, decodeClass8]
  | subnVxVy x y => simp [encode, decodeWord_class8, decodeClass8]
  | shlVx x y => simp [encode, decodeWord_class8, decodeClass8]
  | sneVxVy x y => simp [encode, decodeWord_class9]
  | ldINnn nnn => simp [encode, decodeWord_classA]
  | jpV0Nnn nnn => simp [encode, decodeWord_classB]
  | rndVxKk x kk => simp [encode, decodeWord_classC]
  | drwVxVyN x y n => simp [encode, decodeWord_classD]
  | skpVx x => simp [encode, decodeWord_classE, decodeClassE]
  | sknpVx x => simp [encode, decodeWord_classE, decodeClassE]
  | ldVxDt x => simp [encode, decodeWord_classF, decodeClassF]
  | ldVxK x => simp [encode, decodeWord_classF, decodeClassF]
  | ldDtVx x => simp [encode, decodeWord_classF, decodeClassF]
  | ldStVx x => simp [encode, decodeWord_classF, decodeClassF]
  | addIVx x => simp [encode, decodeWord_classF, decodeClassF]
  | ldFVx x => simp [encode, decodeWord_classF, decodeClassF]
  | ldBVx x => simp [encode, decodeWord_classF, decodeClassF]
  | ldMemVx x => simp [encode, decodeWord_classF, decodeClassF]
  | ldVxMem x => simp [encode, decodeWord_classF, decodeClassF]

/-- Settles O1: the two bytes of the encoding are decoded as its word, and the word as the instruction. -/
theorem decodeInvertsEncode : Obligations.DecodeInvertsEncode := by
  intro i rest h
  have front : encodeBytes i ++ rest = highByte (encode i) :: lowByte (encode i) :: rest := rfl
  rw [front, decode_bytes_of_word, decodeWord_encode i h]

/-! ### Encoding the decoded -/

theorem op_append_nnn {w : Word} {o : Nibble} (ho : fieldOp w = o) : o ++ fieldNnn w = w := by
  apply BitVec.eq_of_toNat_eq
  rw [toNat_op_nnn, ← ho, toNat_fieldOp, toNat_fieldNnn]
  omega

theorem op_append_x_kk {w : Word} {o : Nibble} {k : Byte} (ho : fieldOp w = o) (hk : fieldKk w = k) :
    o ++ fieldX w ++ k = w := by
  apply BitVec.eq_of_toNat_eq
  rw [toNat_op_x_kk, ← ho, ← hk, toNat_fieldOp, toNat_fieldX, toNat_fieldKk]
  omega

theorem op_append_x_y_n {w : Word} {o n : Nibble} (ho : fieldOp w = o) (hn : fieldN w = n) :
    o ++ fieldX w ++ fieldY w ++ n = w := by
  apply BitVec.eq_of_toNat_eq
  rw [toNat_op_x_y_n, ← ho, ← hn, toNat_fieldOp, toNat_fieldX, toNat_fieldY, toNat_fieldN]
  omega

theorem encode_of_decodeClass0 {w : Word} {i : Instr} (ho : fieldOp w = 0x0#4) (h : decodeClass0 w = some i) :
    i.wellFormed = true ∧ encode i = w := by
  have word : 0x0#4 ++ fieldNnn w = w := op_append_nnn ho
  unfold decodeClass0 at h
  split_ifs at h with isCls isRet <;> cases h
  · exact ⟨rfl, isCls.symm⟩
  · exact ⟨rfl, isRet.symm⟩
  · refine ⟨?_, word⟩
    simp only [Instr.wellFormed, Bool.and_eq_true, bne_iff_ne]
    constructor <;> intro e <;> rw [e] at word
    · exact isCls word.symm
    · exact isRet word.symm

theorem encode_of_decodeClass8 {w : Word} {i : Instr} (ho : fieldOp w = 0x8#4) (h : decodeClass8 w = some i) :
    i.wellFormed = true ∧ encode i = w := by
  unfold decodeClass8 at h
  split at h <;> cases h
  all_goals exact ⟨rfl, op_append_x_y_n ho (BitVec.eq_of_toNat_eq ‹_›)⟩

theorem encode_of_decodeClassE {w : Word} {i : Instr} (ho : fieldOp w = 0xE#4) (h : decodeClassE w = some i) :
    i.wellFormed = true ∧ encode i = w := by
  unfold decodeClassE at h
  split_ifs at h <;> cases h
  all_goals exact ⟨rfl, op_append_x_kk ho ‹_›⟩

theorem encode_of_decodeClassF {w : Word} {i : Instr} (ho : fieldOp w = 0xF#4) (h : decodeClassF w = some i) :
    i.wellFormed = true ∧ encode i = w := by
  unfold decodeClassF at h
  split_ifs at h <;> cases h
  all_goals exact ⟨rfl, op_append_x_kk ho ‹_›⟩

/-- Settles O2, by the opcode class: each class puts its selector and the fields it decodes into the operands back together
to the word. -/
theorem encodeInvertsDecode : Obligations.EncodeInvertsDecode := by
  intro w i h
  rcases fieldOp_cases w with c | c | c | c | c | c | c | c | c | c | c | c | c | c | c | c
  · exact encode_of_decodeClass0 c (decodeWord_class0 c ▸ h)
  · rw [decodeWord_class1 c] at h; cases h; exact ⟨rfl, op_append_nnn c⟩
  · rw [decodeWord_class2 c] at h; cases h; exact ⟨rfl, op_append_nnn c⟩
  · rw [decodeWord_class3 c] at h; cases h; exact ⟨rfl, op_append_x_kk c rfl⟩
  · rw [decodeWord_class4 c] at h; cases h; exact ⟨rfl, op_append_x_kk c rfl⟩
  · rw [decodeWord_class5 c] at h; split at h <;> cases h; exact ⟨rfl, op_append_x_y_n c ‹_›⟩
  · rw [decodeWord_class6 c] at h; cases h; exact ⟨rfl, op_append_x_kk c rfl⟩
  · rw [decodeWord_class7 c] at h; cases h; exact ⟨rfl, op_append_x_kk c rfl⟩
  · exact encode_of_decodeClass8 c (decodeWord_class8 c ▸ h)
  · rw [decodeWord_class9 c] at h; split at h <;> cases h; exact ⟨rfl, op_append_x_y_n c ‹_›⟩
  · rw [decodeWord_classA c] at h; cases h; exact ⟨rfl, op_append_nnn c⟩
  · rw [decodeWord_classB c] at h; cases h; exact ⟨rfl, op_append_nnn c⟩
  · rw [decodeWord_classC c] at h; cases h; exact ⟨rfl, op_append_x_kk c rfl⟩
  · rw [decodeWord_classD c] at h; cases h; exact ⟨rfl, op_append_x_y_n c rfl⟩
  · exact encode_of_decodeClassE c (decodeWord_classE c ▸ h)
  · exact encode_of_decodeClassF c (decodeWord_classF c ▸ h)

end Sys2Proof
end

section
/-! The unrecognized words (30_encoding.md R57), and the opcode map (R56) as a decoder: what its four masks test, in terms of
the fields, and its agreement with the two-level dispatch. -/

namespace Sys2Proof

/-! ### What the second levels leave out -/

theorem decodeClass0_ne_none (w : Word) : decodeClass0 w ≠ none := by
  unfold decodeClass0
  split_ifs <;> simp

theorem decodeClass8_eq_none {w : Word} :
    decodeClass8 w = none ↔ w.toNat % 16 ∈ [0x8, 0x9, 0xA, 0xB, 0xC, 0xD, 0xF] := by
  have selector : w.toNat % 16 < 16 := Nat.mod_lt _ (by decide)
  rw [decodeClass8, toNat_fieldN]
  generalize w.toNat % 16 = n at *
  interval_cases n <;> simp

theorem decodeClassE_eq_none {w : Word} : decodeClassE w = none ↔ w.toNat % 256 ∉ [0x9E, 0xA1] := by
  simp only [decodeClassE, ← BitVec.toNat_inj, toNat_fieldKk]
  split_ifs <;> simp_all

theorem decodeClassF_eq_none {w : Word} :
    decodeClassF w = none ↔ w.toNat % 256 ∉ [0x07, 0x0A, 0x15, 0x18, 0x1E, 0x29, 0x33, 0x55, 0x65] := by
  simp only [decodeClassF, ← BitVec.toNat_inj, toNat_fieldKk]
  split_ifs <;> simp_all

/-- Settles O4, by the opcode class: only five classes have a second level that leaves words out. -/
theorem unrecognizedWordsAreThese : Obligations.UnrecognizedWordsAreThese := by
  intro w
  rw [← toNat_fieldOp]
  rcases fieldOp_cases w with c | c | c | c | c | c | c | c | c | c | c | c | c | c | c | c
  · simp [c, decodeWord_class0, decodeClass0_ne_none]
  · simp [c, decodeWord_class1]
  · simp [c, decodeWord_class2]
  · simp [c, decodeWord_class3]
  · simp [c, decodeWord_class4]
  · simp [c, decodeWord_class5, ← BitVec.toNat_inj, toNat_fieldN]
  · simp [c, decodeWord_class6]
  · simp [c, decodeWord_class7]
  · simp [c, decodeWord_class8, decodeClass8_eq_none]
  · simp [c, decodeWord_class9, ← BitVec.toNat_inj, toNat_fieldN]
  · simp [c, decodeWord_classA]
  · simp [c, decodeWord_classB]
  · simp [c, decodeWord_classC]
  · simp [c, decodeWord_classD]
  · simp [c, decodeWord_classE, decodeClassE_eq_none]
  · simp [c, decodeWord_classF, decodeClassF_eq_none]

/-! ### The masks of the opcode map -/

theorem fieldNnn_and_classMask (w : Word) : fieldNnn (w &&& 0xF000) = 0 := by
  rw [fieldNnn, BitVec.extractLsb'_and]
  exact BitVec.and_zero

theorem fieldX_and_selectorMask (w : Word) : fieldX (w &&& 0xF00F) = 0 := by
  rw [fieldX, BitVec.extractLsb'_and]
  exact BitVec.and_zero

theorem fieldY_and_selectorMask (w : Word) : fieldY (w &&& 0xF00F) = 0 := by
  rw [fieldY, BitVec.extractLsb'_and]
  exact BitVec.and_zero

theorem fieldX_and_lowByteMask (w : Word) : fieldX (w &&& 0xF0FF) = 0 := by
  rw [fieldX, BitVec.extractLsb'_and]
  exact BitVec.and_zero

theorem and_classMask (w : Word) : w &&& 0xF000 = fieldOp w ++ 0#12 := by
  rw [← op_append_nnn (fieldOp_and_classMask w), fieldNnn_and_classMask]
  rfl

theorem and_selectorMask (w : Word) : w &&& 0xF00F = fieldOp w ++ 0#4 ++ 0#4 ++ fieldN w := by
  rw [← op_append_x_y_n (fieldOp_and_selectorMask w) (fieldN_and_selectorMask w), fieldX_and_selectorMask,
    fieldY_and_selectorMask]
  rfl

theorem and_lowByteMask (w : Word) : w &&& 0xF0FF = fieldOp w ++ 0#4 ++ fieldKk w := by
  rw [← op_append_x_kk (fieldOp_and_lowByteMask w) (fieldKk_and_lowByteMask w), fieldX_and_lowByteMask]
  rfl

theorem word_eq_iff (w m : Word) :
    w = m ↔ (fieldOp w).toNat = m.toNat / 4096 ∧ (fieldNnn w).toNat = m.toNat % 4096 := by
  rw [← BitVec.toNat_inj, toNat_fieldOp, toNat_fieldNnn]
  omega

theorem matches_whole (w m : Word) :
    w &&& 0xFFFF = m ↔ (fieldOp w).toNat = m.toNat / 4096 ∧ (fieldNnn w).toNat = m.toNat % 4096 := by
  rw [← word_eq_iff, show w &&& 0xFFFF = w from BitVec.and_allOnes]

theorem matches_class (w m : Word) :
    w &&& 0xF000 = m ↔ (fieldOp w).toNat = m.toNat / 4096 ∧ m.toNat % 4096 = 0 := by
  rw [and_classMask, ← BitVec.toNat_inj, toNat_op_nnn, BitVec.toNat_ofNat]
  omega

theorem matches_selector (w m : Word) :
    w &&& 0xF00F = m ↔
      (fieldOp w).toNat = m.toNat / 4096 ∧ (fieldN w).toNat = m.toNat % 16 ∧ m.toNat / 16 % 256 = 0 := by
  rw [and_selectorMask, ← BitVec.toNat_inj, toNat_op_x_y_n, BitVec.toNat_ofNat]
  omega

theorem matches_lowByte (w m : Word) :
    w &&& 0xF0FF = m ↔
      (fieldOp w).toNat = m.toNat / 4096 ∧ (fieldKk w).toNat = m.toNat % 256 ∧ m.toNat / 256 % 16 = 0 := by
  rw [and_lowByteMask, ← BitVec.toNat_inj, toNat_op_x_kk, BitVec.toNat_ofNat]
  omega

/-! ### The first matching row -/

/-- `decodeByMap` for any list of rows. -/
def decodeByRows (rows : List OpcodeRow) (w : Word) : Option Instr :=
  (rows.find? fun row => w &&& row.mask == row.matchBits).map fun row => row.build w

theorem decodeByMap_eq (w : Word) : decodeByMap w = decodeByRows opcodeMap w := rfl

theorem decodeByRows_nil (w : Word) : decodeByRows [] w = none := rfl

theorem decodeByRows_cons (row : OpcodeRow) (rows : List OpcodeRow) (w : Word) :
    decodeByRows (row :: rows) w =
      if w &&& row.mask = row.matchBits then some (row.build w) else decodeByRows rows w := by
  by_cases h : w &&& row.mask = row.matchBits
  · simp [decodeByRows, h]
  · simp [decodeByRows, h, List.find?_cons_of_neg]

/-- Class by class, the rows of the other classes fail, and those of the class test its selector in order. -/
theorem decodeWord_eq_decodeByMap (w : Word) : decodeWord w = decodeByMap w := by
  simp only [decodeByMap_eq, opcodeMap, List.cons_append, List.nil_append, decodeByRows_cons, decodeByRows_nil,
    matches_whole, matches_class, matches_selector, matches_lowByte]
  rcases fieldOp_cases w with c | c | c | c | c | c | c | c | c | c | c | c | c | c | c | c
  · simp [c, decodeWord_class0, decodeClass0, word_eq_iff w]
  · simp [c, decodeWord_class1]
  · simp [c, decodeWord_class2]
  · simp [c, decodeWord_class3]
  · simp [c, decodeWord_class4]
  · simp [c, decodeWord_class5, ← BitVec.toNat_inj]
  · simp [c, decodeWord_class6]
  · simp [c, decodeWord_class7]
  · have selector : (fieldN w).toNat < 16 := (fieldN w).isLt
    simp only [c, decodeWord_class8, decodeClass8]
    generalize (fieldN w).toNat = n at *
    interval_cases n <;> rfl
  · simp [c, decodeWord_class9, ← BitVec.toNat_inj]
  · simp [c, decodeWord_classA]
  · simp [c, decodeWord_classB]
  · simp [c, decodeWord_classC]
  · simp [c, decodeWord_classD]
  · simp [c, decodeWord_classE, decodeClassE, ← BitVec.toNat_inj]
  · simp [c, decodeWord_classF, decodeClassF, ← BitVec.toNat_inj]

/-- Settles O3: the two decoders agree in each opcode class. -/
theorem dispatchAgreesWithOpcodeMap : Obligations.DispatchAgreesWithOpcodeMap :=
  ⟨rfl, decodeWord_eq_decodeByMap⟩

/-- Settles O5, each word by running the decoder. -/
theorem sampleWordsDecode : Obligations.SampleWordsDecode :=
  ⟨rfl, rfl, rfl, rfl, rfl, rfl, rfl, rfl, rfl, rfl, rfl⟩

end Sys2Proof
end

section
/-! The frame of every instruction and of every cycle: the pieces of state that an instruction may write, said once for all
instructions, so that a whole-machine rule is a look at this list. -/

namespace Sys2Proof.Machine

/-! ### Frames compose -/

theorem Unchanged.mono {ch ch' : List Piece} {s t : State} (h : Unchanged ch s t) (sub : ∀ p ∈ ch, p ∈ ch') :
    Unchanged ch' s t where
  v x hx := h.v x (mt (sub _) hx)
  i hi := h.i (mt (sub _) hi)
  pc hp := h.pc (mt (sub _) hp)
  sp hs := h.sp (mt (sub _) hs)
  slot k hk := h.slot k (mt (sub _) hk)
  dt hd := h.dt (mt (sub _) hd)
  st hs := h.st (mt (sub _) hs)
  pixels hp := h.pixels (mt (sub _) hp)
  bytes a ha := h.bytes a fun base len hm => ha base len (sub _ hm)
  keys hk := h.keys (mt (sub _) hk)
  draws hd := h.draws (mt (sub _) hd)
  pulse hp := h.pulse (mt (sub _) hp)
  image := h.image
  run := h.run
  params := h.params

theorem Unchanged.trans {ch : List Piece} {s t u : State} (h : Unchanged ch s t) (h' : Unchanged ch t u) :
    Unchanged ch s u where
  v x hx := (h'.v x hx).trans (h.v x hx)
  i hi := (h'.i hi).trans (h.i hi)
  pc hp := ⟨(h'.pc hp).1.trans (h.pc hp).1, (h'.pc hp).2.trans (h.pc hp).2⟩
  sp hs := (h'.sp hs).trans (h.sp hs)
  slot k hk := (h'.slot k hk).trans (h.slot k hk)
  dt hd := (h'.dt hd).trans (h.dt hd)
  st hs := (h'.st hs).trans (h.st hs)
  pixels hp r c := (h'.pixels hp r c).trans (h.pixels hp r c)
  bytes a ha := (h'.bytes a ha).trans (h.bytes a ha)
  keys hk k := (h'.keys hk k).trans (h.keys hk k)
  draws hd := (h'.draws hd).trans (h.draws hd)
  pulse hp := (h'.pulse hp).trans (h.pulse hp)
  image := h'.image.trans h.image
  run := h'.run.trans h.run
  params := h'.params.trans h.params

/-! ### The updates that have no frame lemma above -/

theorem unchanged_push (s : State) (hs : s.sp.val + 1 < 16) (target : Word) :
    Unchanged [.sp, .slot ⟨s.sp.val + 1, hs⟩, .pc] s
      (State.jump { s with sp := ⟨s.sp.val + 1, hs⟩, stack := s.stack.set (s.sp.val + 1) s.pc hs } target) := by
  constructor <;> (try simp) <;> (try intros) <;> (try rfl)
  rename_i k other
  exact Vector.getElem_set_ne hs k.isLt fun e => other (Fin.ext e.symm)

theorem unchanged_pop (s : State) (sp : Fin 16) (target : Word) :
    Unchanged [.sp, .pc] s (State.jump { s with sp := sp } target) := by
  constructor <;> (try simp) <;> (try intros) <;> rfl

theorem unchanged_display (s : State) (d : Display) : Unchanged [.pixels] s { s with display := d } := by
  constructor <;> (try simp) <;> (try intros) <;> rfl

/-- `V[0]`..`V[x]` as a list of pieces are the registers with a number up to `x`. -/
theorem mem_regsUpTo {x : Nibble} {p : Piece} : p ∈ regsUpTo x ↔ ∃ y : Nibble, p = .v y ∧ y.toNat ≤ x.toNat := by
  have hx := x.isLt
  simp only [regsUpTo, regCount, List.mem_map, List.mem_range]
  constructor
  · rintro ⟨k, hk, rfl⟩
    refine ⟨_, rfl, ?_⟩
    rw [BitVec.toNat_ofNat]
    omega
  · rintro ⟨y, rfl, hy⟩
    exact ⟨y.toNat, by omega, by rw [BitVec.ofNat_toNat, BitVec.setWidth_eq]⟩

theorem unchanged_setRegsFrom (s : State) (x : Nibble) (bs : List Byte) (hl : bs.length = regCount x) :
    Unchanged (regsUpTo x) s (s.setRegsFrom 0 bs) := by
  constructor <;> (try simp)
  intro y hy
  have hx := x.isLt
  have above : ¬ y.toNat ≤ x.toNat := fun h => hy (mem_regsUpTo.mpr ⟨y, rfl, h⟩)
  rw [State.reg_setRegsFrom s (by rw [hl, regCount]; omega), dif_neg (by rw [hl, regCount]; omega)]

/-! ### What an instruction may write -/

/-- The pieces that a completed execute phase of the instruction may change. -/
def written (s : State) : Instr → List Piece
  | .cls => [.pixels]
  | .ret => [.sp, .pc]
  | .call _ => [.sp, .slot (s.sp + 1), .pc]
  | .sys _ | .jp _ | .jpV0Nnn _ | .seVxKk _ _ | .sneVxKk _ _ | .seVxVy _ _ | .sneVxVy _ _ | .skpVx _ | .sknpVx _ => [.pc]
  | .ldVxKk x _ | .addVxKk x _ | .ldVxVy x _ | .orVxVy x _ | .andVxVy x _ | .xorVxVy x _ | .ldVxDt x => [.v x]
  | .addVxVy x _ | .subVxVy x _ | .shrVx x _ | .subnVxVy x _ | .shlVx x _ => [.v x, .v vf]
  | .rndVxKk x _ => [.v x, .draws]
  | .ldINnn _ | .addIVx _ | .ldFVx _ => [.i]
  | .drwVxVyN _ _ _ => [.v vf, .pixels, .pulse]
  | .ldVxK x => [.pc, .v x, .keys]
  | .ldDtVx _ => [.dt]
  | .ldStVx _ => [.st]
  | .ldBVx _ => [.bytes (dataAddress s 0) 3]
  | .ldMemVx x => [.bytes (dataAddress s 0) (regCount x)]
  | .ldVxMem x => regsUpTo x

/-- Every instruction leaves what is not on its list. -/
theorem exec_unchanged {i : Instr} {s t : State} (h : Sys2Proof.Machine.exec i s = .next t) :
    Unchanged (written s i) s t := by
  rcases exec_next_cases h with ⟨target, rfl, hi⟩ | ⟨taken, rfl, hi⟩ | ⟨nnn, hs, rfl, rfl⟩ | ⟨hs, rfl, rfl⟩ |
    ⟨x, b, rfl, hi⟩ | ⟨x, f, b, rfl, hi⟩ | ⟨x, kk, rfl, rfl⟩ | ⟨a, rfl, hi⟩ | ⟨x, rfl, -, rfl⟩ | ⟨x, rfl, -, rfl⟩ |
    ⟨x, rfl, -, rfl⟩ | ⟨rfl, rfl⟩ | ⟨x, y, n, rfl, -, rfl⟩ | ⟨x, k, rfl, -, rfl⟩ | ⟨x, rfl, rfl⟩ | ⟨x, rfl, rfl⟩
  · rcases hi with ⟨nnn, rfl | rfl, -⟩ | ⟨nnn, rfl, -⟩ | ⟨x, rfl, -⟩
    · exact unchanged_jump s _
    · exact unchanged_jump s _
    · exact unchanged_jump s _
    · exact (unchanged_jump s _).mono (by simp [written])
  · rcases hi with ⟨x, kk, rfl, -⟩ | ⟨x, kk, rfl, -⟩ | ⟨x, y, rfl, -⟩ | ⟨x, y, rfl, -⟩ | ⟨x, rfl, -⟩ | ⟨x, rfl, -⟩ <;>
      exact unchanged_skipIf s taken
  · have next : s.sp + 1 = ⟨s.sp.val + 1, by omega⟩ := Fin.ext (Nat.mod_eq_of_lt (show s.sp.val + 1 < 16 by omega))
    rw [written, next]
    exact unchanged_push s _ _
  · exact unchanged_pop s _ _
  · rcases hi with rfl | ⟨kk, rfl, -⟩ | ⟨y, rfl, -⟩ | ⟨y, rfl, -⟩ | ⟨y, rfl, -⟩ | ⟨y, rfl, -⟩ | ⟨rfl, -⟩ <;>
      exact unchanged_setReg s x b
  · rcases hi with ⟨y, rfl, -⟩ | ⟨y, rfl, -⟩ | ⟨y, rfl, -⟩ | ⟨y, rfl, -⟩ | ⟨y, rfl, -⟩ <;>
      exact unchanged_setFlagged s x f b
  · exact unchanged_loadRandom s x kk _
  · rcases hi with ⟨nnn, rfl, -⟩ | ⟨x, rfl, -⟩ | ⟨x, rfl, -⟩ <;> exact unchanged_setI s a
  · exact unchanged_writeBytes s (dataAddress s 0) (decimalDigits (s.reg x))
  · have frame := unchanged_writeBytes s (dataAddress s 0) (s.firstRegs (regCount x))
    rwa [State.length_firstRegs] at frame
  · exact unchanged_setRegsFrom s x _ (State.length_readBytes s _ _)
  · exact unchanged_display s _
  · exact unchanged_drawn s _ _ _
  · exact (unchanged_keyTaken s x _ _).mono (by simp [written])
  · exact unchanged_setDt s _
  · exact unchanged_setSt s _

/-! ### What a cycle may write -/

/-- The pieces that the instruction of a word may write; an unrecognized word writes none of its own. -/
def wordWritten (s : State) (w : Word) : List Piece :=
  match decodeWord w with
  | some i => written s i
  | none => []

/-- The pieces that every cycle may write: the advance, the tick and the pulse. -/
def cycleWritten : List Piece := [.pc, .dt, .st, .pulse]

theorem mem_wordWritten {s : State} {w : Word} {p : Piece} (h : p ∈ wordWritten s w) :
    ∃ i, decodeWord w = some i ∧ p ∈ written s i := by
  unfold wordWritten at h
  split at h
  · exact ⟨_, ‹_›, h⟩
  · cases h

theorem unchanged_beginCycle (s : State) : Unchanged cycleWritten s (beginCycle s) := by
  constructor <;> simp [cycleWritten]

theorem unchanged_endCycle (s : State) : Unchanged cycleWritten s (endCycle s) := by
  constructor <;> simp [cycleWritten]

theorem unchanged_pulse (s : State) (p : Option Pulse) : Unchanged [.pulse] s { s with pulse := p } := by
  constructor <;> (try simp) <;> (try intros) <;> rfl

theorem executePhase_unchanged {w : Word} {s u : State} (h : executePhase w (beginCycle s) = .next u) :
    Unchanged (wordWritten s w ++ cycleWritten) (beginCycle s) u := by
  rcases executePhase_next h with ⟨i, hd, hx⟩ | ⟨hd, rfl⟩
  · have pieces : wordWritten s w = written (beginCycle s) i := by
      rw [wordWritten, hd]
      cases i <;> rfl
    exact (exec_unchanged hx).mono fun p hp => List.mem_append_left _ (pieces ▸ hp)
  · exact (unchanged_pulse _ _).mono (by simp [cycleWritten])

/-- Every cycle leaves what is neither on its word's list nor on the list of all cycles. -/
theorem executeWord_unchanged {w : Word} {s t : State} (h : executeWord w s = .next t) :
    Unchanged (wordWritten s w ++ cycleWritten) s t := by
  obtain ⟨u, hu, rfl⟩ := executeWord_next h
  have cycle {a b : State} (hc : Unchanged cycleWritten a b) : Unchanged (wordWritten s w ++ cycleWritten) a b :=
    hc.mono fun p => List.mem_append_right _
  exact ((cycle (unchanged_beginCycle s)).trans (executePhase_unchanged hu)).trans (cycle (unchanged_endCycle u))

/-- A completed step is the cycle of the word it fetched. -/
theorem executeWord_of_step {s t : State} {w : Word} (hf : fetch s = .ok w) (h : step s = .next t) :
    executeWord w s = .next t := by
  rwa [step_of_fetch (step_next h).1 hf] at h

theorem step_unchanged {s t : State} {w : Word} (hf : fetch s = .ok w) (h : step s = .next t) :
    Unchanged (wordWritten s w ++ cycleWritten) s t :=
  executeWord_unchanged (executeWord_of_step hf h)

/-- A piece that is not of every cycle is written by the instruction of the word or not at all. -/
theorem written_of_mem {s : State} {w : Word} {p : Piece} (cycle : p ∉ cycleWritten)
    (h : p ∈ wordWritten s w ++ cycleWritten) : ∃ i, decodeWord w = some i ∧ p ∈ written s i :=
  mem_wordWritten ((List.mem_append.mp h).resolve_right cycle)

theorem not_mem_pieces {s : State} {w : Word} {p : Piece} (cycle : p ∉ cycleWritten)
    (word : ∀ i, decodeWord w = some i → p ∉ written s i) : p ∉ wordWritten s w ++ cycleWritten := by
  intro h
  obtain ⟨i, hd, hp⟩ := written_of_mem cycle h
  exact word i hd hp

end Sys2Proof.Machine
end

section
/-! The instructions that may fault or that have two outcomes: each as the shared operation it runs, and what a completed
execute phase of it was. -/

namespace Sys2Proof.Machine

theorem exec_call (nnn : Addr12) (s : State) :
    Sys2Proof.Machine.exec (.call nnn) s = pushPc s fun t => .next (t.jump (immAddress nnn)) := rfl

theorem exec_ret (s : State) :
    Sys2Proof.Machine.exec .ret s = popPc s fun target t => .next (t.jump target) := rfl

theorem exec_skpVx (x : Nibble) (s : State) :
    Sys2Proof.Machine.exec (.skpVx x) s = withKeyDigit (s.reg x) fun k => .next (s.skipIf (s.key k)) := rfl

theorem exec_sknpVx (x : Nibble) (s : State) :
    Sys2Proof.Machine.exec (.sknpVx x) s = withKeyDigit (s.reg x) fun k => .next (s.skipIf (!s.key k)) := rfl

theorem exec_drwVxVyN (x y n : Nibble) (s : State) : Sys2Proof.Machine.exec (.drwVxVyN x y n) s =
    guardRange (dataAddress s 0) n.toNat
      (.next { s.setReg vf (collisionFlag (drawSprite x y n s).2) with
               display := (drawSprite x y n s).1, pulse := some .renderReq }) := rfl

theorem exec_ldBVx (x : Nibble) (s : State) : Sys2Proof.Machine.exec (.ldBVx x) s =
    guardRange (dataAddress s 0) 3 (.next (s.writeBytes (dataAddress s 0) (decimalDigits (s.reg x)))) := rfl

theorem exec_ldMemVx (x : Nibble) (s : State) : Sys2Proof.Machine.exec (.ldMemVx x) s =
    guardRange (dataAddress s 0) (regCount x)
      (.next (s.writeBytes (dataAddress s 0) (s.firstRegs (regCount x)))) := rfl

theorem exec_ldVxMem (x : Nibble) (s : State) : Sys2Proof.Machine.exec (.ldVxMem x) s =
    guardRange (dataAddress s 0) (regCount x)
      (.next (s.setRegsFrom 0 (s.readBytes (dataAddress s 0) (regCount x)))) := rfl

theorem exec_ldVxK_wait {x : Nibble} {s : State} (h : selectKey s.params s.keys = none) :
    Sys2Proof.Machine.exec (.ldVxK x) s = .next (s.jump s.pc) := by
  simp only [Sys2Proof.Machine.exec, execLdVxK, h]

theorem exec_ldVxK_take {x k : Nibble} {s : State} (h : selectKey s.params s.keys = some k) :
    Sys2Proof.Machine.exec (.ldVxK x) s = .next { s.setReg x (k.setWidth 8) with keys := allKeysUp } := by
  simp only [Sys2Proof.Machine.exec, execLdVxK, h]

variable {s t : State}

theorem exec_call_next {nnn : Addr12} (h : Sys2Proof.Machine.exec (.call nnn) s = .next t) :
    ∃ hs : s.sp.val < 15,
      t = State.jump { s with sp := ⟨s.sp.val + 1, by omega⟩, stack := s.stack.set (s.sp.val + 1) s.pc (by omega) }
        (immAddress nnn) := by
  simpa using exec_next_cases h

theorem exec_ret_next (h : Sys2Proof.Machine.exec .ret s = .next t) :
    0 < s.sp.val ∧ t = State.jump { s with sp := ⟨s.sp.val - 1, by omega⟩ } (s.slot s.sp) := by
  simpa using exec_next_cases h

theorem exec_skpVx_next {x : Nibble} (h : Sys2Proof.Machine.exec (.skpVx x) s = .next t) :
    t = s.skipIf (s.key ((s.reg x).setWidth 4)) ∧ (s.reg x).toNat ≤ 15 := by
  simpa using exec_next_cases h

theorem exec_sknpVx_next {x : Nibble} (h : Sys2Proof.Machine.exec (.sknpVx x) s = .next t) :
    t = s.skipIf (!s.key ((s.reg x).setWidth 4)) ∧ (s.reg x).toNat ≤ 15 := by
  simpa using exec_next_cases h

theorem exec_ldVxK_next {x : Nibble} (h : Sys2Proof.Machine.exec (.ldVxK x) s = .next t) :
    (selectKey s.params s.keys = none ∧ t = s.jump s.pc) ∨
    (∃ k, selectKey s.params s.keys = some k ∧ t = { s.setReg x (k.setWidth 8) with keys := allKeysUp }) := by
  cases hk : selectKey s.params s.keys with
  | none => cases (exec_ldVxK_wait hk).symm.trans h; exact .inl ⟨rfl, rfl⟩
  | some k => cases (exec_ldVxK_take hk).symm.trans h; exact .inr ⟨k, rfl, rfl⟩

theorem exec_ldBVx_next {x : Nibble} (h : Sys2Proof.Machine.exec (.ldBVx x) s = .next t) :
    dataAddress s 0 + 3 ≤ memSize ∧ t = s.writeBytes (dataAddress s 0) (decimalDigits (s.reg x)) := by
  simpa using exec_next_cases h

theorem exec_ldMemVx_next {x : Nibble} (h : Sys2Proof.Machine.exec (.ldMemVx x) s = .next t) :
    dataAddress s 0 + regCount x ≤ memSize ∧ t = s.writeBytes (dataAddress s 0) (s.firstRegs (regCount x)) := by
  simpa using exec_next_cases h

theorem exec_drwVxVyN_next {x y n : Nibble} (h : Sys2Proof.Machine.exec (.drwVxVyN x y n) s = .next t) :
    (n.toNat = 0 ∨ dataAddress s 0 + n.toNat ≤ memSize) ∧
    t = { s.setReg vf (collisionFlag (drawSprite x y n s).2) with
          display := (drawSprite x y n s).1, pulse := some .renderReq } := by
  rw [exec_drwVxVyN] at h
  obtain ⟨fits, body⟩ := guardRange_next h
  cases body
  exact ⟨fits, rfl⟩

end Sys2Proof.Machine
end

section
/-! Which instructions have a piece on their list, and the whole-machine rules of 10_state.md and 20_memory.md: who changes
the stack, memory, the pixels, the key flags, I, IMAGE, RUN and VF. -/

namespace Sys2Proof.Machine

/-! ### Who may write a piece -/

theorem i_written {s : State} {i : Instr} (h : Piece.i ∈ written s i) :
    (∃ nnn, i = .ldINnn nnn) ∨ (∃ x, i = .addIVx x) ∨ (∃ x, i = .ldFVx x) := by
  cases i <;> simp_all [written, mem_regsUpTo]

theorem stack_written {s : State} {i : Instr} (h : Piece.sp ∈ written s i ∨ ∃ k, Piece.slot k ∈ written s i) :
    (∃ nnn, i = .call nnn) ∨ i = .ret := by
  cases i <;> simp_all [written, mem_regsUpTo]

theorem pixels_written {s : State} {i : Instr} (h : Piece.pixels ∈ written s i) :
    i = .cls ∨ ∃ x y n, i = .drwVxVyN x y n := by
  cases i <;> simp_all [written, mem_regsUpTo]

theorem keys_written {s : State} {i : Instr} (h : Piece.keys ∈ written s i) : ∃ x, i = .ldVxK x := by
  cases i <;> simp_all [written, mem_regsUpTo]

theorem bytes_written {s : State} {i : Instr} {base len : Nat} (h : Piece.bytes base len ∈ written s i) :
    (∃ x, i = .ldBVx x ∧ base = dataAddress s 0 ∧ len = 3) ∨
    (∃ x, i = .ldMemVx x ∧ base = dataAddress s 0 ∧ len = regCount x) := by
  cases i <;> simp_all [written, mem_regsUpTo]

theorem vf_written {s : State} {i : Instr} (h : Piece.v vf ∈ written s i) :
    (∃ x y, i = .addVxVy x y ∨ i = .subVxVy x y ∨ i = .shrVx x y ∨ i = .subnVxVy x y ∨ i = .shlVx x y) ∨
    (∃ x y n, i = .drwVxVyN x y n) ∨
    (∃ kk, i = .ldVxKk vf kk ∨ i = .addVxKk vf kk ∨ i = .rndVxKk vf kk) ∨
    (∃ y, i = .ldVxVy vf y ∨ i = .orVxVy vf y ∨ i = .andVxVy vf y ∨ i = .xorVxVy vf y) ∨
    i = .ldVxDt vf ∨ i = .ldVxK vf ∨ i = .ldVxMem vf := by
  cases i with
  | ldVxMem x =>
    obtain ⟨y, hy, last⟩ := mem_regsUpTo.mp h
    cases hy
    have : x = vf := BitVec.eq_of_toNat_eq (Nat.le_antisymm (Nat.le_of_lt_succ x.isLt) last)
    simp [this]
  | _ => simp_all [written]

/-! ### The rules -/

/-- Settles O40: SP and the slots are on the lists of the call and of the return only. -/
theorem onlyCallAndRetChangeTheStack : Obligations.OnlyCallAndRetChangeTheStack := by
  intro s t w hf h notCall notRet
  have frame := step_unchanged hf h
  have notWritten (i : Instr) (hd : decodeWord w = some i) :
      ¬ (Piece.sp ∈ written s i ∨ ∃ k, Piece.slot k ∈ written s i) := by
    intro hp
    rcases stack_written hp with ⟨nnn, rfl⟩ | rfl
    · exact notCall nnn hd
    · exact notRet hd
  constructor
  · exact frame.sp (not_mem_pieces (by simp [cycleWritten]) fun i hd hp => notWritten i hd (.inl hp))
  · exact fun k => frame.slot k (not_mem_pieces (by simp [cycleWritten]) fun i hd hp => notWritten i hd (.inr ⟨k, hp⟩))

/-- Settles O41: the bytes on the lists are those of the two stores. -/
theorem onlyStoresChangeMemory : Obligations.OnlyStoresChangeMemory := by
  intro s t w a hf h changed
  have inRange : ∃ base len, Piece.bytes base len ∈ wordWritten s w ++ cycleWritten ∧ base ≤ a ∧ a < base + len := by
    by_contra none
    refine changed ((step_unchanged hf h).bytes a fun base len hm => ?_)
    by_contra inside
    exact none ⟨base, len, hm, by omega, by omega⟩
  obtain ⟨base, len, hm, low, high⟩ := inRange
  obtain ⟨i, hd, hp⟩ := written_of_mem (by simp [cycleWritten]) hm
  rcases bytes_written hp with ⟨x, rfl, rfl, rfl⟩ | ⟨x, rfl, rfl, rfl⟩
  · simp only [dataAddress] at low high
    exact .inl ⟨x, hd, by omega, by omega⟩
  · simp only [dataAddress, regCount] at low high
    exact .inr ⟨x, hd, by omega, by omega⟩

/-- Settles O42: the pixels are on the lists of the clear and of the draw only. -/
theorem onlyClsAndDrwChangePixels : Obligations.OnlyClsAndDrwChangePixels := by
  intro s t w hf h notCls notDrw
  refine (step_unchanged hf h).pixels (not_mem_pieces (by simp [cycleWritten]) fun i hd hp => ?_)
  rcases pixels_written hp with rfl | ⟨x, y, n, rfl⟩
  · exact notCls hd
  · exact notDrw x y n hd

/-- Settles O43: the key flags are on the list of `Fx0A` only, and where it changes them it has cleared them all. -/
theorem onlyKeyWaitChangesKeys : Obligations.OnlyKeyWaitChangesKeys := by
  intro s t w k hf h changed
  obtain ⟨i, hd, hp⟩ := written_of_mem (p := .keys) (by simp [cycleWritten])
    (not_not.mp fun notWritten => changed ((step_unchanged hf h).keys notWritten k))
  obtain ⟨x, rfl⟩ := keys_written hp
  refine ⟨⟨x, hd⟩, ?_⟩
  obtain ⟨u, hu, rfl⟩ := step_fetched hf h
  rw [executePhase, hd] at hu
  rcases exec_ldVxK_next hu with ⟨-, rfl⟩ | ⟨j, -, rfl⟩
  · exact absurd rfl changed
  · exact allKeysUp_get

/-- Settles O44: I is on three lists only. -/
theorem onlyThreeInstructionsChangeI : Obligations.OnlyThreeInstructionsChangeI := by
  intro s t w hf h changed
  obtain ⟨i, hd, hp⟩ := written_of_mem (p := .i) (by simp [cycleWritten])
    (not_not.mp fun notWritten => changed ((step_unchanged hf h).i notWritten))
  rw [hd]
  simpa using i_written hp

/-- Settles O45: IMAGE, RUN and the parameters are in the frame of every cycle. -/
theorem noStepChangesImageOrRun : Obligations.NoStepChangesImageOrRun := by
  intro s t h
  obtain ⟨-, w, -, hf, -, -⟩ := step_next h
  have frame := step_unchanged hf h
  exact ⟨frame.image, frame.run, frame.params⟩

/-- Settles O46: VF is on the lists of the flag-setting instructions, of the draw, and of those whose destination it is. -/
theorem whoChangesVf : Obligations.WhoChangesVf := by
  intro s t w hf h changed
  obtain ⟨i, hd, hp⟩ := written_of_mem (p := .v vf) (by simp [cycleWritten])
    (not_not.mp fun notWritten => changed ((step_unchanged hf h).v vf notWritten))
  rw [hd]
  simpa using vf_written hp

end Sys2Proof.Machine
end

section
/-! The cycle around the execute phase (40_cycle.md R70 to R78): the step of a decoded and of an unrecognized word, and what
every completed cycle leaves in PC, in the timers and as its pulse. -/

namespace Sys2Proof.Machine

/-! ### The parts of a cycle -/

/-- The execute phase of a word from the start of a cycle, and the end of the cycle, written out on the fields. -/
theorem executeWord_eq (w : Word) (s : State) : executeWord w s =
    match (match decodeWord w with
      | some i => Sys2Proof.Machine.exec i { s with pcSet := false, pulse := none }
      | none => .next { s with pcSet := false, pulse := some (.decodeFail w s.pc) }) with
    | .next t =>
      .next { t with
              pc := if t.pcSet then t.pc else t.pc + 2#16
              dt := if t.dt = 0 then 0 else t.dt - 1
              st := if t.st = 0 then 0 else t.st - 1
              pcSet := false }
    | .fault f => .fault f
    | .refused r => .refused r := by
  unfold executeWord executePhase
  cases decodeWord w <;> rfl

theorem decodeWord_of_decode {b0 b1 : Byte} {i : Instr} {rest : List Byte} (h : decode [b0, b1] = .ok (i, rest)) :
    decodeWord (wordOfBytes b0 b1) = some i := by
  cases hd : decodeWord (wordOfBytes b0 b1) with
  | none => simp [decode, hd] at h
  | some j => simp_all [decode]

/-- Settles O6: before the fetch `idle` is tested, the fetch faults above 0xFFE, and a fetched word is its cycle. -/
theorem stepRunsDecodedInstruction : Obligations.StepRunsDecodedInstruction := by
  refine ⟨fun s => step_idle, fun s loaded above => ?above, fun s loaded last => ?last, fun s i loaded fits hd => ?cycle⟩
  case above =>
    rw [step_fetch_fault loaded (by simp only [memSize]; omega), Nat.max_eq_left (by simp only [memSize]; omega)]
  case last =>
    rw [step_fetch_fault loaded (by simp only [memSize]; omega), last]
    rfl
  case cycle =>
    have fetched : fetch s = .ok (wordOfBytes (s.byteAt s.pc.toNat) (s.byteAt (s.pc.toNat + 1))) :=
      fetch_eq_ok.mpr ⟨by simp only [memSize]; omega, rfl⟩
    have cycle := (step_of_fetch loaded fetched).trans (executeWord_eq _ s)
    rw [decodeWord_of_decode hd] at cycle
    exact cycle

/-- The cycle of an unrecognized word. -/
theorem executeWord_unrecognized {w : Word} (s : State) (h : decodeWord w = none) :
    executeWord w s = .next (endCycle { beginCycle s with pulse := some (.decodeFail w s.pc) }) := by
  rw [executeWord_eq, h]
  rfl

/-- Settles O7: the cycle of an unrecognized word has an empty execute phase but for the pulse. -/
theorem unrecognizedWordIsNoOp : Obligations.UnrecognizedWordIsNoOp := by
  intro s w loaded fits hw hd
  have fetched : fetch s = .ok w := fetch_eq_ok.mpr ⟨by simp only [memSize]; omega, hw⟩
  have cycle := executeWord_unrecognized s hd
  have frame := executeWord_unchanged cycle
  rw [wordWritten, hd] at frame
  exact ⟨_, (step_of_fetch loaded fetched).trans cycle, rfl, toNat_tickTimer s.dt, toNat_tickTimer s.st, rfl, rfl, frame⟩

/-- Settles O8: `exec_word` is the cycle that a step runs after its fetch. -/
theorem execWordIsStepWithoutFetch : Obligations.ExecWordIsStepWithoutFetch := by
  refine ⟨fun s w => executeWord_eq w s, fun s w loaded fetched => (step_of_fetch loaded fetched).symm,
    fun s x kk => ⟨endCycle ((beginCycle s).setReg x kk), ?_, ?_, ?_, rfl, fun a => rfl⟩⟩
  · exact executeWord_of_exec (decodeWord_encode _ rfl) (exec_ldVxKk x kk _)
  · exact State.reg_setReg_same _ x kk
  · exact BitVec.toNat_add s.pc 2#16

/-! ### Every completed cycle -/

section
variable {i : Instr} {s u : State}

/-- The advance does not wrap after a fetch. -/
theorem pc_of_advance (fits : s.pc.toNat + 2 ≤ memSize) (samePc : u.pc = s.pc) (notSet : u.pcSet = false) :
    (endCycle u).pc.toNat = s.pc.toNat + 2 := by
  simp only [memSize] at fits
  rw [endCycle_pc, notSet, samePc]
  exact BitVec.toNat_add_of_lt (y := 2#16) (show s.pc.toNat + 2 < 65536 by omega)

/-- An instruction without PC on its list leaves PC to the advance. -/
theorem pc_of_not_written (fits : s.pc.toNat + 2 ≤ memSize) (hx : Sys2Proof.Machine.exec i (beginCycle s) = .next u)
    (h : Piece.pc ∉ written (beginCycle s) i) : (endCycle u).pc.toNat = s.pc.toNat + 2 := by
  obtain ⟨samePc, notSet⟩ := (exec_unchanged hx).pc h
  exact pc_of_advance fits samePc notSet

/-- A skip after a fetch does not wrap either. -/
theorem pc_of_skip (fits : s.pc.toNat + 2 ≤ memSize) (taken : Bool) :
    (endCycle ((beginCycle s).skipIf taken)).pc.toNat = s.pc.toNat + if taken then 4 else 2 := by
  simp only [memSize] at fits
  cases taken
  · exact BitVec.toNat_add_of_lt (y := 2#16) (show s.pc.toNat + 2 < 65536 by omega)
  · exact BitVec.toNat_add_of_lt (y := 4#16) (show s.pc.toNat + 4 < 65536 by omega)

end

/-- Settles O9: the instructions with PC on their list, one by one; every other word leaves PC to the advance. -/
theorem pcAfterEveryCycle : Obligations.PcAfterEveryCycle := by
  intro s t w hf h
  obtain ⟨fits, -⟩ := fetch_eq_ok.mp hf
  obtain ⟨u, hu, rfl⟩ := step_fetched hf h
  rcases executePhase_next hu with ⟨i, hd, hx⟩ | ⟨hd, rfl⟩
  · rw [hd]
    cases i with
    | sys nnn => cases hx; exact toNat_immAddress nnn
    | jp nnn => cases hx; exact toNat_immAddress nnn
    | call nnn => obtain ⟨-, rfl⟩ := exec_call_next hx; exact toNat_immAddress nnn
    | ret => obtain ⟨-, rfl⟩ := exec_ret_next hx; rfl
    | jpV0Nnn nnn =>
      cases hx
      refine (toNat_indexedTarget (beginCycle s) nnn).trans (Nat.mod_eq_of_lt ?_).symm
      have := (s.reg 0).isLt
      omega
    | seVxKk x kk => cases hx; simpa using pc_of_skip fits (s.reg x == kk)
    | sneVxKk x kk => cases hx; simpa using pc_of_skip fits (s.reg x != kk)
    | seVxVy x y => cases hx; simpa using pc_of_skip fits (s.reg x == s.reg y)
    | sneVxVy x y => cases hx; simpa using pc_of_skip fits (s.reg x != s.reg y)
    | skpVx x => obtain ⟨rfl, -⟩ := exec_skpVx_next hx; exact pc_of_skip fits _
    | sknpVx x =>
      obtain ⟨rfl, -⟩ := exec_sknpVx_next hx
      refine (pc_of_skip fits _).trans ?_
      cases hk : s.key ((s.reg x).setWidth 4) <;> simp [hk]
    | ldVxK x =>
      rcases exec_ldVxK_next hx with ⟨up, rfl⟩ | ⟨k, down, rfl⟩
      · have allUp : ∀ k, s.key k = false := selectKey_eq_none.mp up
        simp [allUp]
      · have notAllUp : ¬ ∀ k, s.key k = false := fun up => Bool.false_ne_true ((up k).symm.trans (selectKey_down down))
        simp only [if_neg notAllUp]
        exact pc_of_advance fits rfl rfl
    | _ => exact pc_of_not_written fits hx (by simp [written, mem_regsUpTo])
  · rw [hd]
    exact pc_of_advance fits rfl rfl

/-- Settles O10: the tick is the last thing done to the timers, and the lists of the other instructions have no timer. -/
theorem timersTickEveryCycle : Obligations.TimersTickEveryCycle := by
  intro s t w hf h
  obtain ⟨u, hu, rfl⟩ := step_fetched hf h
  simp only [endCycle_dt, endCycle_st, toNat_tickTimer]
  rcases executePhase_next hu with ⟨i, hd, hx⟩ | ⟨hd, rfl⟩
  · rw [hd]
    have frame := exec_unchanged hx
    cases i with
    | ldDtVx x => cases hx; exact ⟨rfl, rfl, fun y hy => by cases hy⟩
    | ldStVx x => cases hx; exact ⟨rfl, rfl, fun y hy => by cases hy⟩
    | ldVxDt x => cases hx; exact ⟨rfl, rfl, fun y hy => by cases hy; exact State.reg_setReg_same _ _ _⟩
    | _ =>
      rw [frame.dt (by simp [written, mem_regsUpTo]), frame.st (by simp [written, mem_regsUpTo])]
      exact ⟨rfl, rfl, fun y hy => by cases hy⟩
  · rw [hd]
    exact ⟨rfl, rfl, fun y hy => by cases hy⟩

/-- The pulse of a completed cycle: the draw's, the unrecognized word's, or none. -/
theorem pulse_of_cycle {w : Word} {s u : State} (h : executePhase w (beginCycle s) = .next u) :
    ((∃ x y n, decodeWord w = some (.drwVxVyN x y n)) ∧ u.pulse = some .renderReq) ∨
    (decodeWord w = none ∧ u.pulse = some (.decodeFail w s.pc)) ∨
    ((∀ x y n, decodeWord w ≠ some (.drwVxVyN x y n)) ∧ decodeWord w ≠ none ∧ u.pulse = none) := by
  rcases executePhase_next h with ⟨i, hd, hx⟩ | ⟨hd, rfl⟩
  · rw [hd]
    have frame := exec_unchanged hx
    cases i with
    | drwVxVyN x y n =>
      obtain ⟨-, rfl⟩ := exec_drwVxVyN_next hx
      exact .inl ⟨⟨x, y, n, rfl⟩, rfl⟩
    | _ => exact .inr (.inr ⟨by simp, by simp, frame.pulse (by simp [written, mem_regsUpTo])⟩)
  · exact .inr (.inl ⟨hd, rfl⟩)

/-- Settles O49: the three cases of the pulse exclude each other. -/
theorem pulsesOfAStep : Obligations.PulsesOfAStep := by
  intro s t w hf h
  obtain ⟨u, hu, rfl⟩ := step_fetched hf h
  rw [endCycle_pulse]
  rcases pulse_of_cycle hu with ⟨⟨x, y, n, hd⟩, hp⟩ | ⟨hd, hp⟩ | ⟨notDrw, recognized, hp⟩
  · simp [hd, hp]
  · simp [hd, hp, eq_comm]
  · simp [notDrw, recognized, hp]

end Sys2Proof.Machine
end

section
/-! The invariants that every step keeps: the canonical form of memory (20_memory.md section 1) and the bounds of PC and of
the slots (70_reset_and_hazards.md R203). -/

namespace Sys2Proof.Machine

/-! ### Memory -/

/-- An instruction leaves memory alone or stores bytes that all exist, from the data address on. -/
theorem exec_mem {i : Instr} {s t : State} (h : Sys2Proof.Machine.exec i s = .next t) :
    t.mem = s.mem ∨
    ∃ bs : List Byte, dataAddress s 0 + bs.length ≤ memSize ∧ t.mem = (s.writeBytes (dataAddress s 0) bs).mem := by
  rcases exec_next_cases h with ⟨target, rfl, -⟩ | ⟨taken, rfl, -⟩ | ⟨nnn, hs, -, rfl⟩ | ⟨hs, -, rfl⟩ |
    ⟨x, b, rfl, -⟩ | ⟨x, f, b, rfl, -⟩ | ⟨x, kk, -, rfl⟩ | ⟨a, rfl, -⟩ | ⟨x, -, hr, rfl⟩ | ⟨x, -, hr, rfl⟩ |
    ⟨x, -, -, rfl⟩ | ⟨-, rfl⟩ | ⟨x, y, n, -, -, rfl⟩ | ⟨x, k, -, -, rfl⟩ | ⟨x, -, rfl⟩ | ⟨x, -, rfl⟩
  iterate 8 (· exact .inl (by simp))
  · exact .inr ⟨decimalDigits (s.reg x), hr, rfl⟩
  · exact .inr ⟨s.firstRegs (regCount x), by rwa [State.length_firstRegs], rfl⟩
  all_goals exact .inl (by simp)

theorem exec_keeps_canonical {i : Instr} {s t : State} (hs : s.MemoryCanonical)
    (h : Sys2Proof.Machine.exec i s = .next t) : t.MemoryCanonical := by
  rw [State.MemoryCanonical, (exec_unchanged h).params]
  rcases exec_mem h with e | ⟨bs, fits, e⟩ <;> rw [e]
  · exact hs
  · exact State.canonical_writeBytes fits hs

theorem executeWord_keeps_canonical {w : Word} {s t : State} (hs : s.MemoryCanonical) (h : executeWord w s = .next t) :
    t.MemoryCanonical := by
  obtain ⟨u, hu, rfl⟩ := executeWord_next h
  rcases executePhase_next hu with ⟨i, -, hx⟩ | ⟨-, rfl⟩
  · exact exec_keeps_canonical (s := beginCycle s) (t := u) hs hx
  · exact hs

/-- Settles O51: a store inside the address space keeps the form, and nothing else touches memory. -/
theorem stepKeepsMemoryCanonical : Obligations.StepKeepsMemoryCanonical := by
  intro s t hs h
  obtain ⟨-, w, -, hf, -, -⟩ := step_next h
  exact executeWord_keeps_canonical hs (executeWord_of_step hf h)

/-! ### PC and the slots -/

/-- A call writes its own address, which was fetched, into one slot; no other instruction writes a slot. -/
theorem slot_of_step {s t : State} {w : Word} (hf : fetch s = .ok w) (h : step s = .next t) (k : Fin 16) :
    t.slot k = s.pc ∨ t.slot k = s.slot k := by
  by_cases isCall : ∃ nnn, decodeWord w = some (.call nnn)
  · obtain ⟨nnn, hd⟩ := isCall
    obtain ⟨u, hu, rfl⟩ := step_fetched hf h
    rw [executePhase, hd] at hu
    obtain ⟨fits, rfl⟩ := exec_call_next hu
    by_cases hk : s.sp.val + 1 = k.val
    · left
      simp [State.slot, hk]
    · right
      exact Vector.getElem_set_ne (Nat.succ_lt_succ fits) k.isLt hk
  · by_cases isRet : decodeWord w = some .ret
    · obtain ⟨u, hu, rfl⟩ := step_fetched hf h
      rw [executePhase, isRet] at hu
      obtain ⟨-, rfl⟩ := exec_ret_next hu
      exact .inr rfl
    · exact .inr ((onlyCallAndRetChangeTheStack s t w hf h (fun nnn hd => isCall ⟨nnn, hd⟩) isRet).2 k)

/-- Settles O53: every line of the table of what PC becomes is within the bound. -/
theorem stepKeepsPcBounded : Obligations.StepKeepsPcBounded := by
  intro s t hs h
  obtain ⟨-, w, -, hf, -, -⟩ := step_next h
  obtain ⟨fits, -⟩ := fetch_eq_ok.mp hf
  simp only [memSize] at fits
  constructor
  · have direct (nnn : Addr12) : nnn.toNat ≤ 0x10FE := by omega
    have near (n : Nat) (hn : n ≤ 4) : s.pc.toNat + n ≤ 0x10FE := by omega
    rw [pcAfterEveryCycle s t w hf h]
    split
    case h_1 | h_2 | h_3 => exact direct _
    case h_4 => exact Nat.le_trans (hs.slots s.sp) (by decide)
    case h_5 nnn _ => exact Nat.le_trans (Nat.mod_le _ _) (show nnn.toNat + (s.reg 0).toNat ≤ 0x10FE by omega)
    case h_13 => exact near 2 (by decide)
    all_goals exact near _ (by split <;> decide)
  · intro k
    rcases slot_of_step hf h k with e | e <;> rw [e]
    · omega
    · exact hs.slots k

end Sys2Proof.Machine
end

section
/-! The rows of the opcode map (30_encoding.md R56) that no lemma above recognizes. -/

namespace Sys2Proof.Machine

/-! ### Rows that the opcode class alone selects -/

theorem recognized_class1 : Recognized 0xF000 0x1000 (fun w => .jp (fieldNnn w)) :=
  fun _ h => decodeWord_class1 (fieldOp_of_classRow h)

theorem recognized_class2 : Recognized 0xF000 0x2000 (fun w => .call (fieldNnn w)) :=
  fun _ h => decodeWord_class2 (fieldOp_of_classRow h)

theorem recognized_class3 : Recognized 0xF000 0x3000 (fun w => .seVxKk (fieldX w) (fieldKk w)) :=
  fun _ h => decodeWord_class3 (fieldOp_of_classRow h)

theorem recognized_class4 : Recognized 0xF000 0x4000 (fun w => .sneVxKk (fieldX w) (fieldKk w)) :=
  fun _ h => decodeWord_class4 (fieldOp_of_classRow h)

theorem recognized_classC : Recognized 0xF000 0xC000 (fun w => .rndVxKk (fieldX w) (fieldKk w)) :=
  fun _ h => decodeWord_classC (fieldOp_of_classRow h)

theorem recognized_classD : Recognized 0xF000 0xD000 (fun w => .drwVxVyN (fieldX w) (fieldY w) (fieldN w)) :=
  fun _ h => decodeWord_classD (fieldOp_of_classRow h)

/-- The class-0 row, after the two whole words have been tested. -/
theorem decodeWord_sys {w : Word} (h : w &&& 0xF000 = 0x0000) (notCls : w ≠ 0x00E0) (notRet : w ≠ 0x00EE) :
    decodeWord w = some (.sys (fieldNnn w)) := by
  rw [decodeWord_class0 (fieldOp_of_classRow h)]
  exact (if_neg notCls).trans (if_neg notRet)

/-! ### Rows that the class and the low nibble select -/

theorem selectors_of_row {w m : Word} (h : w &&& 0xF00F = m) : fieldOp w = fieldOp m ∧ fieldN w = fieldN m := by
  rw [← h, fieldOp_and_selectorMask, fieldN_and_selectorMask]
  exact ⟨rfl, rfl⟩

theorem recognized_seVxVy : Recognized 0xF00F 0x5000 (fun w => .seVxVy (fieldX w) (fieldY w)) := by
  intro w h
  obtain ⟨class5, selector⟩ := selectors_of_row h
  rw [decodeWord_class5 class5]
  exact if_pos selector

theorem recognized_sneVxVy : Recognized 0xF00F 0x9000 (fun w => .sneVxVy (fieldX w) (fieldY w)) := by
  intro w h
  obtain ⟨class9, selector⟩ := selectors_of_row h
  rw [decodeWord_class9 class9]
  exact if_pos selector

/-- The other words of classes 5 and 9 do not decode. -/
theorem decodeWord_registerSkip_none {w : Word} (h : w &&& 0xF000 = 0x5000 ∨ w &&& 0xF000 = 0x9000)
    (other : w &&& 0x000F ≠ 0) : decodeWord w = none := by
  have notZero : fieldN w ≠ 0x0#4 := by
    intro e
    have lowNibble : (w &&& 0x000F).toNat = w.toNat % 16 := Nat.and_two_pow_sub_one_eq_mod w.toNat 4
    rw [← toNat_fieldN, e] at lowNibble
    exact other (BitVec.eq_of_toNat_eq lowNibble)
  rcases h with h | h
  · rw [decodeWord_class5 (fieldOp_of_classRow h), if_neg notZero]
  · rw [decodeWord_class9 (fieldOp_of_classRow h), if_neg notZero]

theorem recognized_addVxVy : Recognized 0xF00F 0x8004 (fun w => .addVxVy (fieldX w) (fieldY w)) :=
  recognized_class8 rfl fun w h => by rw [decodeClass8, h]; rfl

theorem recognized_subVxVy : Recognized 0xF00F 0x8005 (fun w => .subVxVy (fieldX w) (fieldY w)) :=
  recognized_class8 rfl fun w h => by rw [decodeClass8, h]; rfl

theorem recognized_shrVx : Recognized 0xF00F 0x8006 (fun w => .shrVx (fieldX w) (fieldY w)) :=
  recognized_class8 rfl fun w h => by rw [decodeClass8, h]; rfl

theorem recognized_subnVxVy : Recognized 0xF00F 0x8007 (fun w => .subnVxVy (fieldX w) (fieldY w)) :=
  recognized_class8 rfl fun w h => by rw [decodeClass8, h]; rfl

theorem recognized_shlVx : Recognized 0xF00F 0x800E (fun w => .shlVx (fieldX w) (fieldY w)) :=
  recognized_class8 rfl fun w h => by rw [decodeClass8, h]; rfl

/-! ### Rows that the class and the low byte select -/

/-- A row of class E is recognized when the class's second level answers it for the row's low byte. -/
theorem recognized_classE {m : Word} {build : Word → Instr} (classE : fieldOp m = 0xE#4)
    (selected : ∀ w, fieldKk w = fieldKk m → decodeClassE w = some (build w)) : Recognized 0xF0FF m build := by
  rintro w rfl
  rw [fieldOp_and_lowByteMask] at classE
  rw [decodeWord_classE classE]
  exact selected w (fieldKk_and_lowByteMask w).symm

theorem recognized_skpVx : Recognized 0xF0FF 0xE09E (fun w => .skpVx (fieldX w)) :=
  recognized_classE rfl fun w h => by rw [decodeClassE, h]; rfl

theorem recognized_sknpVx : Recognized 0xF0FF 0xE0A1 (fun w => .sknpVx (fieldX w)) :=
  recognized_classE rfl fun w h => by rw [decodeClassE, h]; rfl

theorem recognized_ldVxDt : Recognized 0xF0FF 0xF007 (fun w => .ldVxDt (fieldX w)) :=
  recognized_classF rfl fun w h => by rw [decodeClassF, h]; rfl

theorem recognized_ldVxK : Recognized 0xF0FF 0xF00A (fun w => .ldVxK (fieldX w)) :=
  recognized_classF rfl fun w h => by rw [decodeClassF, h]; rfl

theorem recognized_ldDtVx : Recognized 0xF0FF 0xF015 (fun w => .ldDtVx (fieldX w)) :=
  recognized_classF rfl fun w h => by rw [decodeClassF, h]; rfl

theorem recognized_ldStVx : Recognized 0xF0FF 0xF018 (fun w => .ldStVx (fieldX w)) :=
  recognized_classF rfl fun w h => by rw [decodeClassF, h]; rfl

theorem recognized_ldBVx : Recognized 0xF0FF 0xF033 (fun w => .ldBVx (fieldX w)) :=
  recognized_classF rfl fun w h => by rw [decodeClassF, h]; rfl

theorem recognized_ldMemVx : Recognized 0xF0FF 0xF055 (fun w => .ldMemVx (fieldX w)) :=
  recognized_classF rfl fun w h => by rw [decodeClassF, h]; rfl

theorem recognized_ldVxMem : Recognized 0xF0FF 0xF065 (fun w => .ldVxMem (fieldX w)) :=
  recognized_classF rfl fun w h => by rw [decodeClassF, h]; rfl

end Sys2Proof.Machine
end

section
/-! Control flow and stack (41_control_flow.md): jumps, skips, calls and returns. -/

namespace Sys2Proof.Machine

/-! ### Jumps and skips -/

/-- A jump to an immediate address; above 0xFFE the next fetch finds no second byte. -/
theorem jump_immAddress (nnn : Addr12) (s : State) :
    (s.jump (immAddress nnn)).pc.toNat = nnn.toNat ∧ (s.jump (immAddress nnn)).pcSet = true ∧
    Unchanged [.pc] s (s.jump (immAddress nnn)) ∧
    (s.run ≠ .idle → 0xFFE < nnn.toNat → step (s.jump (immAddress nnn)) = .fault (.memoryOutOfRange 4096)) := by
  have target : (s.jump (immAddress nnn)).pc.toNat = nnn.toNat := toNat_immAddress nnn
  refine ⟨target, rfl, unchanged_jump s _, fun loaded above => ?_⟩
  have outside : memSize < (s.jump (immAddress nnn)).pc.toNat + 2 := by
    simp only [memSize]
    omega
  rw [step_fetch_fault (s := s.jump (immAddress nnn)) loaded outside, target, Nat.max_eq_right (by simp only [memSize]; omega)]

/-- Settles O11: both instructions are one jump to nnn. -/
theorem sysAndJpJump : Obligations.SysAndJpJump := by
  refine ⟨fun w => decodeWord_sys, recognized_class1, fun nnn s i hi => ⟨s.jump (immAddress nnn), ?_, jump_immAddress nnn s⟩⟩
  simp only [List.mem_cons, List.not_mem_nil, or_false] at hi
  rcases hi with rfl | rfl <;> rfl

/-- What a skip does: PC is 4 or 2 further, modulo 65536, and is set. -/
theorem skipIf_spec (s : State) (taken : Bool) :
    (s.skipIf taken).pcSet = true ∧ Unchanged [.pc] s (s.skipIf taken) ∧
    (s.skipIf taken).pc.toNat = (s.pc.toNat + if taken then 4 else 2) % 65536 := by
  refine ⟨rfl, unchanged_skipIf s taken, ?_⟩
  cases taken
  · exact BitVec.toNat_add s.pc 2#16
  · exact BitVec.toNat_add s.pc 4#16

/-- Settles O15: one skip on a comparison of bytes. -/
theorem immediateSkips : Obligations.ImmediateSkips := by
  refine ⟨recognized_class3, recognized_class4, fun x kk s => ⟨⟨s.skipIf (s.reg x == kk), rfl, ?_⟩,
    ⟨s.skipIf (s.reg x != kk), rfl, ?_⟩⟩⟩
  · simpa [BitVec.toNat_inj] using skipIf_spec s (s.reg x == kk)
  · simpa [BitVec.toNat_inj] using skipIf_spec s (s.reg x != kk)

/-- Settles O16: one skip on a comparison of registers. -/
theorem registerSkips : Obligations.RegisterSkips := by
  refine ⟨recognized_seVxVy, recognized_sneVxVy, fun w => decodeWord_registerSkip_none, fun x y s =>
    ⟨⟨s.skipIf (s.reg x == s.reg y), rfl, ?_⟩, ⟨s.skipIf (s.reg x != s.reg y), rfl, ?_⟩⟩⟩
  · simpa [BitVec.toNat_inj] using skipIf_spec s (s.reg x == s.reg y)
  · simpa [BitVec.toNat_inj] using skipIf_spec s (s.reg x != s.reg y)

/-! ### Calls and returns -/

theorem exec_call_ok {s : State} (nnn : Addr12) (hs : s.sp.val < 15) : Sys2Proof.Machine.exec (.call nnn) s =
    .next (State.jump { s with sp := ⟨s.sp.val + 1, by omega⟩, stack := s.stack.set (s.sp.val + 1) s.pc (by omega) }
      (immAddress nnn)) := by
  rw [exec_call, pushPc_ok _ hs]

theorem exec_call_full {s : State} (nnn : Addr12) (hs : s.sp.val = 15) :
    Sys2Proof.Machine.exec (.call nnn) s = .fault (.stackOverflow 15) := by
  rw [exec_call, pushPc_fault _ hs]

theorem exec_ret_ok {s : State} (hs : 0 < s.sp.val) : Sys2Proof.Machine.exec .ret s =
    .next (State.jump { s with sp := ⟨s.sp.val - 1, by omega⟩ } (s.slot s.sp)) := by
  rw [exec_ret, popPc_ok _ hs]

theorem exec_ret_empty {s : State} (hs : s.sp.val = 0) :
    Sys2Proof.Machine.exec .ret s = .fault (.stackUnderflow 0) := by
  rw [exec_ret, popPc_fault _ hs]

/-- Settles O12: below 15 the push has room, and its frame is SP and the one slot. -/
theorem callPushesItsOwnAddress : Obligations.CallPushesItsOwnAddress := by
  refine ⟨recognized_class2, fun nnn s => ⟨fun hs => ?_, exec_call_full nnn⟩⟩
  exact ⟨_, exec_call_ok nnn hs, rfl, Vector.getElem_set_self _, toNat_immAddress nnn, rfl,
    unchanged_push s (Nat.succ_lt_succ hs) _⟩

/-- Settles O13: above 0 there is a slot to pop, and the pop writes SP only. -/
theorem retPopsIntoPc : Obligations.RetPopsIntoPc := by
  refine ⟨rfl, fun s => ⟨fun hs => ?_, exec_ret_empty⟩⟩
  exact ⟨_, exec_ret_ok hs, rfl, rfl, Nat.succ_pred_eq_of_pos hs, unchanged_pop s _ _⟩

/-- Settles O14: the slot that the return pops is the one that the call wrote. -/
theorem returnLandsOnTheCall : Obligations.ReturnLandsOnTheCall := by
  intro nnn s t u w hcall sameSp sameSlot hret
  obtain ⟨hs, rfl⟩ := exec_call_next hcall
  obtain ⟨-, rfl⟩ := exec_ret_next hret
  refine ⟨sameSlot.trans (Vector.getElem_set_self _), Fin.ext ?_⟩
  have level : u.sp.val = s.sp.val + 1 := congrArg Fin.val sameSp
  exact Nat.sub_eq_of_eq_add level

/-! ### Faults -/

/-- A guarded body that completes faults with the lowest address that does not exist. -/
theorem guardRange_eq_fault {base len : Nat} {t : State} {f : Fault} (h : guardRange base len (.next t) = .fault f) :
    f = .memoryOutOfRange (max base memSize) := by
  unfold guardRange at h
  split at h <;> cases h
  rfl

theorem withKeyDigit_eq_fault {b : Byte} {k : Nibble → Result} {f : Fault} (h : withKeyDigit b k = .fault f) :
    k (b.setWidth 4) = .fault f ∨ (f = .keyOutOfRange b ∧ 15 < b.toNat) := by
  by_cases hb : b.toNat ≤ 15
  · exact .inl ((withKeyDigit_ok k hb).symm.trans h)
  · rw [withKeyDigit_fault k (by omega)] at h
    cases h
    exact .inr ⟨rfl, by omega⟩

/-- Settles O47, instruction by instruction: the body of each guarded one faults with nothing of its own, and the others
answer a next state. -/
theorem faultsOfEachInstruction : Obligations.FaultsOfEachInstruction := by
  intro i s f h
  cases i with
  | call nnn =>
    by_cases hs : s.sp.val < 15
    · cases (exec_call_ok nnn hs).symm.trans h
    · have full : s.sp.val = 15 := by omega
      cases (exec_call_full nnn full).symm.trans h
      exact .inl ⟨nnn, rfl, rfl, full⟩
  | ret =>
    by_cases hs : 0 < s.sp.val
    · cases (exec_ret_ok hs).symm.trans h
    · have empty : s.sp.val = 0 := by omega
      cases (exec_ret_empty empty).symm.trans h
      exact .inr (.inl ⟨rfl, rfl, empty⟩)
  | skpVx x =>
    rw [exec_skpVx] at h
    rcases withKeyDigit_eq_fault h with h | h
    · cases h
    · exact .inr (.inr (.inl ⟨x, .inl rfl, h⟩))
  | sknpVx x =>
    rw [exec_sknpVx] at h
    rcases withKeyDigit_eq_fault h with h | h
    · cases h
    · exact .inr (.inr (.inl ⟨x, .inr rfl, h⟩))
  | drwVxVyN x y n =>
    rw [exec_drwVxVyN] at h
    exact .inr (.inr (.inr ⟨.inr ⟨x, y, n, rfl⟩, guardRange_eq_fault h⟩))
  | ldBVx x =>
    rw [exec_ldBVx] at h
    exact .inr (.inr (.inr ⟨.inl ⟨x, .inl rfl⟩, guardRange_eq_fault h⟩))
  | ldMemVx x =>
    rw [exec_ldMemVx] at h
    exact .inr (.inr (.inr ⟨.inl ⟨x, .inr (.inl rfl)⟩, guardRange_eq_fault h⟩))
  | ldVxMem x =>
    rw [exec_ldVxMem] at h
    exact .inr (.inr (.inr ⟨.inl ⟨x, .inr (.inr rfl)⟩, guardRange_eq_fault h⟩))
  | ldVxK x =>
    cases hk : selectKey s.params s.keys with
    | none => cases (exec_ldVxK_wait hk).symm.trans h
    | some k => cases (exec_ldVxK_take hk).symm.trans h
  | _ => cases h

/-! ### No refusal -/

theorem guardRange_ne_refused {base len : Nat} {t : State} {r : Refusal} :
    guardRange base len (.next t) ≠ .refused r := by
  unfold guardRange
  split <;> exact fun h => nomatch h

theorem withKeyDigit_ne_refused {b : Byte} {k : Nibble → State} {r : Refusal} :
    (withKeyDigit b fun d => .next (k d)) ≠ .refused r := by
  unfold withKeyDigit
  split <;> exact fun h => nomatch h

/-- Settles O48: each instruction answers a next state, a guarded one, or a fault. -/
theorem noInstructionIsRefused : Obligations.NoInstructionIsRefused := by
  intro i s r h
  cases i with
  | call nnn =>
    by_cases hs : s.sp.val < 15
    · cases (exec_call_ok nnn hs).symm.trans h
    · cases (exec_call_full nnn (by omega)).symm.trans h
  | ret =>
    by_cases hs : 0 < s.sp.val
    · cases (exec_ret_ok hs).symm.trans h
    · cases (exec_ret_empty (by omega)).symm.trans h
  | skpVx x => exact withKeyDigit_ne_refused ((exec_skpVx x s).symm.trans h)
  | sknpVx x => exact withKeyDigit_ne_refused ((exec_sknpVx x s).symm.trans h)
  | drwVxVyN x y n => exact guardRange_ne_refused ((exec_drwVxVyN x y n s).symm.trans h)
  | ldBVx x => exact guardRange_ne_refused ((exec_ldBVx x s).symm.trans h)
  | ldMemVx x => exact guardRange_ne_refused ((exec_ldMemVx x s).symm.trans h)
  | ldVxMem x => exact guardRange_ne_refused ((exec_ldVxMem x s).symm.trans h)
  | ldVxK x =>
    cases hk : selectKey s.params s.keys with
    | none => cases (exec_ldVxK_wait hk).symm.trans h
    | some k => cases (exec_ldVxK_take hk).symm.trans h
  | _ => cases h

end Sys2Proof.Machine
end

section
/-! The flag-setting arithmetic, the shifts, the random load and the timer copies (42_arithmetic_logic.md,
45_keyboard_timers.md): each completes in every state with one named update. -/

namespace Sys2Proof.Machine

/-! ### Flags as numbers -/

theorem toNat_flagByte (b : Bool) : (flagByte b).toNat = if b then 1 else 0 := by
  cases b <;> rfl

theorem toNat_carryFlag (a b : Byte) : (carryFlag a b).toNat = if a.toNat + b.toNat > 255 then 1 else 0 := by
  simp only [carryFlag, toNat_flagByte, decide_eq_true_eq]

theorem toNat_noBorrowFlag (a b : Byte) : (noBorrowFlag a b).toNat = if a.toNat ≥ b.toNat then 1 else 0 := by
  simp only [noBorrowFlag, toNat_flagByte, decide_eq_true_eq]

theorem toNat_shiftRightFlag (a : Byte) : (shiftRightFlag a).toNat = a.toNat % 2 := by
  revert a
  decide

theorem toNat_shiftLeftFlag (a : Byte) : (shiftLeftFlag a).toNat = a.toNat / 128 := by
  revert a
  decide

/-! ### Results as numbers -/

theorem toNat_sub_mod (a b : Byte) : ((a - b).toNat : Int) = (a.toNat - b.toNat : Int) % 256 := by
  rw [BitVec.toNat_sub]
  omega

theorem toNat_shiftRight_one (a : Byte) : (a >>> 1).toNat = a.toNat / 2 := by
  rw [BitVec.toNat_ushiftRight, Nat.shiftRight_eq_div_pow, Nat.pow_one]

theorem toNat_shiftLeft_one (a : Byte) : (a <<< 1).toNat = (2 * a.toNat) % 256 := by
  rw [BitVec.toNat_shiftLeft, Nat.shiftLeft_eq, Nat.pow_one, Nat.mul_comm]

/-- What a flag-setting instruction leaves: the result in `V[x]`, the flag in VF unless x is F, and nothing else. -/
theorem setFlagged_spec (s : State) (x : Nibble) (f b : Byte) :
    ((s.setFlagged x f b).reg x).toNat = b.toNat ∧ (x ≠ vf → ((s.setFlagged x f b).reg vf).toNat = f.toNat) ∧
    Unchanged [.v x, .v vf] s (s.setFlagged x f b) :=
  ⟨congrArg _ (State.reg_setFlagged_result s x f b), fun hx => congrArg _ (State.reg_setFlagged_flag s f b hx),
    unchanged_setFlagged s x f b⟩

/-- Settles O22: one flagged write of the sum and its carry. -/
theorem addSetsCarry : Obligations.AddSetsCarry := by
  refine ⟨recognized_addVxVy, fun x y s => ⟨_, rfl, ?_⟩⟩
  obtain ⟨result, flag, frame⟩ := setFlagged_spec s x (carryFlag (s.reg x) (s.reg y)) (s.reg x + s.reg y)
  exact ⟨result.trans (BitVec.toNat_add _ _), fun hx => (flag hx).trans (toNat_carryFlag _ _), frame⟩

/-- Settles O23: one flagged write of the difference and its missing borrow. -/
theorem subtractionsSetNoBorrow : Obligations.SubtractionsSetNoBorrow := by
  refine ⟨recognized_subVxVy, recognized_subnVxVy, fun x y s => ⟨⟨_, rfl, ?_⟩, ⟨_, rfl, ?_⟩⟩⟩
  · obtain ⟨result, flag, frame⟩ := setFlagged_spec s x (noBorrowFlag (s.reg x) (s.reg y)) (s.reg x - s.reg y)
    exact ⟨result ▸ toNat_sub_mod _ _, fun hx => (flag hx).trans (toNat_noBorrowFlag _ _), frame⟩
  · obtain ⟨result, flag, frame⟩ := setFlagged_spec s x (noBorrowFlag (s.reg y) (s.reg x)) (s.reg y - s.reg x)
    exact ⟨result ▸ toNat_sub_mod _ _, fun hx => (flag hx).trans (toNat_noBorrowFlag _ _), frame⟩

/-- Settles O24: one flagged write of the shifted byte and the bit shifted out, in which y does not occur. -/
theorem shiftsMoveOneBitIntoVf : Obligations.ShiftsMoveOneBitIntoVf := by
  refine ⟨recognized_shrVx, recognized_shlVx, fun x y z s => ⟨⟨_, rfl, rfl, ?_⟩, ⟨_, rfl, rfl, ?_⟩⟩⟩
  · obtain ⟨result, flag, frame⟩ := setFlagged_spec s x (shiftRightFlag (s.reg x)) (s.reg x >>> 1)
    exact ⟨result.trans (toNat_shiftRight_one _), fun hx => (flag hx).trans (toNat_shiftRightFlag _), frame⟩
  · obtain ⟨result, flag, frame⟩ := setFlagged_spec s x (shiftLeftFlag (s.reg x)) (s.reg x <<< 1)
    exact ⟨result.trans (toNat_shiftLeft_one _), fun hx => (flag hx).trans (toNat_shiftLeftFlag _), frame⟩

theorem reg_loadRandom (x : Nibble) (kk rnd : Byte) (s : State) : (loadRandom x kk rnd s).reg x = kk &&& rnd :=
  State.reg_setReg_same s x (kk &&& rnd)

/-- Settles O25: whatever the byte is, the mask keeps only bits of kk. -/
theorem randomIsMaskedByKk : Obligations.RandomIsMaskedByKk := by
  refine ⟨recognized_classC, fun x kk s => ⟨⟨_, rfl, reg_loadRandom x kk _ s, rfl⟩, fun rnd =>
    ⟨reg_loadRandom x kk rnd s, rfl, fun j hj => ?_, unchanged_loadRandom s x kk rnd⟩⟩⟩
  rw [reg_loadRandom, BitVec.getLsbD_and, hj, Bool.false_and]

/-! ### Timers -/

theorem exec_ldVxDt (x : Nibble) (s : State) : Sys2Proof.Machine.exec (.ldVxDt x) s = .next (s.setReg x s.dt) := rfl

theorem exec_ldDtVx (x : Nibble) (s : State) : Sys2Proof.Machine.exec (.ldDtVx x) s = .next (s.setDt (s.reg x)) := rfl

theorem exec_ldStVx (x : Nibble) (s : State) : Sys2Proof.Machine.exec (.ldStVx x) s = .next (s.setSt (s.reg x)) := rfl

/-- Settles O39: each copy is one named update, and the tick follows it in the same cycle. -/
theorem timerMoves : Obligations.TimerMoves := by
  refine ⟨recognized_ldVxDt, recognized_ldDtVx, recognized_ldStVx, fun x s => ⟨?_, ?_, ?_, ?_, ?_, ?_⟩⟩
  · exact ⟨_, exec_ldVxDt x s, State.reg_setReg_same s x _, unchanged_setReg s x _⟩
  · exact ⟨_, exec_ldDtVx x s, rfl, unchanged_setDt s _⟩
  · exact ⟨_, exec_ldStVx x s, rfl, unchanged_setSt s _⟩
  · exact ⟨_, executeWord_of_exec (decodeWord_encode (.ldVxDt x) rfl) (exec_ldVxDt x _), State.reg_setReg_same _ x _,
      toNat_tickTimer s.dt⟩
  · exact ⟨_, executeWord_of_exec (decodeWord_encode (.ldDtVx x) rfl) (exec_ldDtVx x _), toNat_tickTimer (s.reg x)⟩
  · exact ⟨_, executeWord_of_exec (decodeWord_encode (.ldStVx x) rfl) (exec_ldStVx x _), toNat_tickTimer (s.reg x)⟩

end Sys2Proof.Machine
end

section
/-! The loads and stores of 43_index_memory.md, and what a fetch sees of the stores (20_memory.md section 6). -/

namespace Sys2Proof.Machine

theorem byteAfterDigits_hundreds (s : State) (x : Nibble) :
    byteAfterDigits s x (dataAddress s 0) = BitVec.ofNat 8 ((s.reg x).toNat / 100) :=
  if_pos rfl

theorem byteAfterDigits_tens (s : State) (x : Nibble) :
    byteAfterDigits s x (dataAddress s 1) = BitVec.ofNat 8 ((s.reg x).toNat / 10 % 10) := by
  simp [byteAfterDigits, dataAddress]

theorem byteAfterDigits_ones (s : State) (x : Nibble) :
    byteAfterDigits s x (dataAddress s 2) = BitVec.ofNat 8 ((s.reg x).toNat % 10) := by
  simp [byteAfterDigits, dataAddress]

/-- Settles O27: the three digits are bytes from the data address on, and a guarded store faults before it writes. -/
theorem decimalDigitsAreStored : Obligations.DecimalDigitsAreStored := by
  refine ⟨recognized_ldBVx, fun x s => ⟨fun fits => ?stored, fun above => ?fault⟩⟩
  case stored =>
    refine ⟨_, (exec_ldBVx x s).trans (guardRange_ok _ (.inr ?_)), ?_, ?_, ?_,
      unchanged_writeBytes s (dataAddress s 0) (decimalDigits (s.reg x))⟩
    · simp only [dataAddress, memSize] at fits ⊢
      omega
    · rw [byteAt_storeDigits, byteAfterDigits_hundreds]
      exact Nat.mod_eq_of_lt (by omega)
    · rw [byteAt_storeDigits, byteAfterDigits_tens]
      exact Nat.mod_eq_of_lt (by omega)
    · rw [byteAt_storeDigits, byteAfterDigits_ones]
      exact Nat.mod_eq_of_lt (by omega)
  case fault =>
    refine (exec_ldBVx x s).trans (guardRange_fault _ (by decide) ?_)
    simp only [dataAddress, memSize] at above ⊢
    omega

/-- Settles O28: the registers are bytes from the data address on. -/
theorem registersAreStored : Obligations.RegistersAreStored := by
  refine ⟨recognized_ldMemVx, fun x s => ⟨fun fits => ?stored, fun above => ?fault⟩⟩
  case stored =>
    have frame := unchanged_writeBytes s (dataAddress s 0) (s.firstRegs (regCount x))
    rw [State.length_firstRegs] at frame
    refine ⟨_, (exec_ldMemVx x s).trans (guardRange_ok _ (.inr ?_)), fun r hr => ?_, frame⟩
    · simp only [dataAddress, regCount, memSize] at fits ⊢
      omega
    · have inside : s.iReg.toNat ≤ dataAddress s r.toNat ∧ dataAddress s r.toNat ≤ s.iReg.toNat + x.toNat := by
        simp only [dataAddress]
        omega
      have offset : dataAddress s r.toNat - s.iReg.toNat = r.toNat := Nat.add_sub_cancel_left ..
      rw [byteAt_storeRegs, byteAfterRegs, if_pos inside, offset, BitVec.ofNat_toNat, BitVec.setWidth_eq]
  case fault =>
    refine (exec_ldMemVx x s).trans (guardRange_fault _ (Nat.succ_pos _) ?_)
    simp only [dataAddress, regCount, memSize] at above ⊢
    omega

/-- Settles O29: register r of the first `x + 1` is byte r from the data address, and the others are kept. -/
theorem registersAreLoaded : Obligations.RegistersAreLoaded := by
  refine ⟨recognized_ldVxMem, fun x s => ⟨fun fits => ?loaded, fun above => ?fault⟩⟩
  case loaded =>
    have count : (s.readBytes (dataAddress s 0) (regCount x)).length = x.toNat + 1 := State.length_readBytes s _ _
    have all := State.reg_setRegsFrom s (k := 0) (bs := s.readBytes (dataAddress s 0) (regCount x))
      (by rw [count]; omega)
    refine ⟨_, (exec_ldVxMem x s).trans (guardRange_ok _ (.inr ?_)), fun r hr => ?_, fun r hr => ?_,
      unchanged_setRegsFrom s x _ count⟩
    · simp only [dataAddress, regCount, memSize] at fits ⊢
      omega
    · rw [all, dif_pos (by rw [count]; omega), State.getElem_readBytes]
      rfl
    · rw [all, dif_neg (by rw [count]; omega)]
  case fault =>
    refine (exec_ldVxMem x s).trans (guardRange_fault _ (Nat.succ_pos _) ?_)
    simp only [dataAddress, regCount, memSize] at above ⊢
    omega

/-- A fetch gives the two bytes that memory reads as at PC, the lower address high. -/
theorem fetch_of_bytes {t : State} {bytes : Nat → Byte} (h : ∀ a, t.byteAt a = bytes a) {pc : Word}
    (fits : pc.toNat ≤ 0xFFE) : fetch { t with pc := pc } = .ok (bytes pc.toNat ++ bytes (pc.toNat + 1)) := by
  refine fetch_eq_ok.mpr ⟨?_, ?_⟩
  · simp only [memSize]
    omega
  · rw [← h, ← h]
    rfl

/-- The execute phase of a word that a step fetched. -/
theorem exec_of_step {s t : State} {w : Word} {i : Instr} (h : step s = .next t) (hf : fetch s = .ok w)
    (hd : decodeWord w = some i) : ∃ u, Sys2Proof.Machine.exec i (beginCycle s) = .next u ∧ t = endCycle u := by
  obtain ⟨u, hu, rfl⟩ := step_fetched hf h
  rw [executePhase, hd] at hu
  exact ⟨u, hu, rfl⟩

/-- Settles O31: after either store, alone or in its cycle, every byte of memory is known, so a fetch gives two of them. -/
theorem storedCodeIsFetched : Obligations.StoredCodeIsFetched := by
  intro x s t pc fits
  constructor
  · rintro (h | ⟨h, w, hf, hd⟩)
    · obtain ⟨-, rfl⟩ := exec_ldMemVx_next h
      exact fetch_of_bytes (byteAt_storeRegs s x) fits
    · obtain ⟨u, hu, rfl⟩ := exec_of_step h hf hd
      obtain ⟨-, rfl⟩ := exec_ldMemVx_next hu
      exact fetch_of_bytes (bytes := byteAfterRegs s x) (byteAt_storeRegs (beginCycle s) x) fits
  · rintro (h | ⟨h, w, hf, hd⟩)
    · obtain ⟨-, rfl⟩ := exec_ldBVx_next h
      exact fetch_of_bytes (byteAt_storeDigits s x) fits
    · obtain ⟨u, hu, rfl⟩ := exec_of_step h hf hd
      obtain ⟨-, rfl⟩ := exec_ldBVx_next hu
      exact fetch_of_bytes (bytes := byteAfterDigits s x) (byteAt_storeDigits (beginCycle s) x) fits

end Sys2Proof.Machine
end

section
/-! The display instructions (44_display.md): what `drawSprite_spec` says of a covered and of an uncovered pixel and of VF. -/

namespace Sys2Proof.Machine

/-- Settles O32: the one field written is the display, and it is clear. -/
theorem clsClearsEveryPixel : Obligations.ClsClearsEveryPixel :=
  ⟨rfl, fun s => ⟨_, rfl, Display.pixel_clear, unchanged_display s _⟩⟩

section
variable {x y n : Nibble} {s : State}

theorem pixel_drawSprite_covered {r : Fin 32} {c : Fin 64} (h : SpriteCovers s x y n r c) :
    (drawSprite x y n s).1.pixel r c = !s.display.pixel r c := by
  have toggled := (drawSprite_spec x y n s).1 r c
  rw [Bool.eq_iff_iff, toggled]
  simp [h]

theorem pixel_drawSprite_uncovered {r : Fin 32} {c : Fin 64} (h : ¬ SpriteCovers s x y n r c) :
    (drawSprite x y n s).1.pixel r c = s.display.pixel r c := by
  have toggled := (drawSprite_spec x y n s).1 r c
  rw [Bool.eq_iff_iff, toggled]
  simp [h]

theorem collisionFlag_eq_one {hit : Bool} : collisionFlag hit = 1 ↔ hit = true := by
  cases hit <;> decide

theorem collisionFlag_eq_zero {hit : Bool} : collisionFlag hit = 0 ↔ hit = false := by
  cases hit <;> decide

theorem exec_drwVxVyN_ok (h : n.toNat = 0 ∨ dataAddress s 0 + n.toNat ≤ memSize) :
    Sys2Proof.Machine.exec (.drwVxVyN x y n) s =
      .next { s.setReg vf (collisionFlag (drawSprite x y n s).2) with
              display := (drawSprite x y n s).1, pulse := some .renderReq } := by
  rw [exec_drwVxVyN, guardRange_ok _ h]

theorem pixel_of_draw_covered {t : State} (h : Sys2Proof.Machine.exec (.drwVxVyN x y n) s = .next t) {r : Fin 32}
    {c : Fin 64} (hc : SpriteCovers s x y n r c) : t.display.pixel r c = !s.display.pixel r c := by
  obtain ⟨-, rfl⟩ := exec_drwVxVyN_next h
  exact pixel_drawSprite_covered hc

theorem pixel_of_draw_uncovered {t : State} (h : Sys2Proof.Machine.exec (.drwVxVyN x y n) s = .next t) {r : Fin 32}
    {c : Fin 64} (hc : ¬ SpriteCovers s x y n r c) : t.display.pixel r c = s.display.pixel r c := by
  obtain ⟨-, rfl⟩ := exec_drwVxVyN_next h
  exact pixel_drawSprite_uncovered hc

theorem reg_vf_drawn (s : State) (f : Byte) (d : Display) (p : Option Pulse) :
    State.reg { s.setReg vf f with display := d, pulse := p } vf = f :=
  State.reg_setReg_same s vf f

/-- After a completed draw VF is 1 exactly when a covered pixel was on. -/
theorem reg_vf_of_draw {t : State} (h : Sys2Proof.Machine.exec (.drwVxVyN x y n) s = .next t) :
    t.reg vf = 1 ↔ ∃ r c, SpriteCovers s x y n r c ∧ s.display.pixel r c = true := by
  obtain ⟨-, rfl⟩ := exec_drwVxVyN_next h
  rw [reg_vf_drawn, collisionFlag_eq_one]
  exact (drawSprite_spec x y n s).2

end

/-- Settles O33: the guard, then `drawSprite_spec` pixel by pixel. -/
theorem drawTogglesCoveredPixels : Obligations.DrawTogglesCoveredPixels := by
  refine ⟨recognized_classD, fun x y n s => ⟨fun fits => ?drawn, fun notZero above => ?fault⟩⟩
  case drawn =>
    have guarded : n.toNat = 0 ∨ dataAddress s 0 + n.toNat ≤ memSize := by
      simp only [dataAddress, memSize]
      rcases fits with rfl | fits
      · exact .inl rfl
      · omega
    have hit := (drawSprite_spec x y n s).2
    refine ⟨_, exec_drwVxVyN_ok guarded, fun r c => pixel_drawSprite_covered, fun r c => pixel_drawSprite_uncovered,
      fun some => ?_, fun none => ?_, rfl, unchanged_drawn s _ _ _⟩
    · rw [reg_vf_drawn, collisionFlag_eq_one]
      exact hit.mpr some
    · rw [reg_vf_drawn, collisionFlag_eq_zero, Bool.eq_false_iff]
      intro isHit
      obtain ⟨r, c, covered, on⟩ := hit.mp isHit
      rw [none r c covered] at on
      cases on
  case fault =>
    have pos : 0 < n.toNat := Nat.pos_of_ne_zero fun e => notZero (BitVec.eq_of_toNat_eq e)
    refine (exec_drwVxVyN x y n s).trans (guardRange_fault _ pos ?_)
    simp only [dataAddress, memSize]
    omega

/-- Settles O34: a sprite of no rows has no bits to draw, and no bytes to check. -/
theorem drawOfHeightZero : Obligations.DrawOfHeightZero := by
  intro x y s
  have frame : Unchanged [.v vf, .pulse] s { s.setReg vf 0 with pulse := some .renderReq } :=
    ((unchanged_setReg s vf 0).mono (by simp)).trans ((unchanged_pulse _ _).mono (by simp))
  exact ⟨_, exec_drwVxVyN_ok (.inl rfl), State.reg_setReg_same s vf 0, rfl, frame⟩

/-- Settles O35: the second draw covers the same pixels, each of which the first has inverted. -/
theorem drawTwiceRestores : Obligations.DrawTwiceRestores := by
  intro x y n s t u first sameX sameY second
  have same (r c) : SpriteCovers t x y n r c ↔ SpriteCovers s x y n r c := by
    have frame := exec_unchanged first
    unfold SpriteCovers
    rw [sameX, sameY, frame.i (by simp [written]), frame.params]
    simp only [frame.bytes _ (by simp [written])]
  refine ⟨fun r c => ?_, (reg_vf_of_draw second).trans ?_, reg_vf_of_draw first⟩
  · by_cases hc : SpriteCovers s x y n r c
    · rw [pixel_of_draw_covered second ((same r c).mpr hc), pixel_of_draw_covered first hc, Bool.not_not]
    · rw [pixel_of_draw_uncovered second (mt (same r c).mp hc), pixel_of_draw_uncovered first hc]
  · refine exists_congr fun r => exists_congr fun c => ?_
    rw [same]
    refine and_congr_right fun hc => ?_
    rw [pixel_of_draw_covered first hc, Bool.not_eq_true']

end Sys2Proof.Machine
end

section
/-! The key instructions (45_keyboard_timers.md R150 to R152) and the choice of a key (00_scope.md R4 table P2). -/

namespace Sys2Proof.Machine

/-- A register that holds a key digit names that key. -/
theorem setWidth_eq_digit {b : Byte} {k : Nibble} (h : b.toNat = k.toNat) : b.setWidth 4 = k := by
  apply BitVec.eq_of_toNat_eq
  rw [BitVec.toNat_setWidth, h]
  exact Nat.mod_eq_of_lt k.isLt

/-- Settles O36: the whole byte is checked, then it is one skip on the flag it names. -/
theorem keySkips : Obligations.KeySkips := by
  refine ⟨recognized_skpVx, recognized_sknpVx, fun x k s => ⟨fun hk => ?digit, fun above => ?fault⟩⟩
  case digit =>
    have inRange : (s.reg x).toNat ≤ 15 := hk ▸ Nat.le_of_lt_succ k.isLt
    rw [exec_skpVx, exec_sknpVx, withKeyDigit_ok _ inRange, withKeyDigit_ok _ inRange, setWidth_eq_digit hk]
    refine ⟨⟨_, rfl, skipIf_spec s (s.key k)⟩, ⟨_, rfl, ?_⟩⟩
    simpa using skipIf_spec s (!s.key k)
  case fault =>
    rw [exec_skpVx, exec_sknpVx, withKeyDigit_fault _ above, withKeyDigit_fault _ above]
    exact ⟨rfl, rfl⟩

/-- Where no entry is for the flags, the lowest key down is selected. -/
theorem selectKey_of_no_entry {p : Params} {keys : Vector Bool 16} (h : ∀ e ∈ p.keySelect, e.1 ≠ keys) :
    selectKey p keys = lowestKey keys := by
  have none : p.keySelect.find? (fun e => e.1 == keys) = none := List.find?_eq_none.mpr fun e he => by simpa using h e he
  unfold selectKey
  rw [none]
  cases lowestKey keys <;> rfl

/-- Where the first entry for the flags names `j`, that key is selected if it is down, else the lowest one. -/
theorem selectKey_of_entry {p : Params} {keys : Vector Bool 16} {earlier later : List (Vector Bool 16 × Nibble)}
    {j low : Nibble} (table : p.keySelect = earlier ++ (keys, j) :: later) (first : ∀ e ∈ earlier, e.1 ≠ keys)
    (hlow : lowestKey keys = some low) :
    selectKey p keys = if keys[j.toNat]'j.isLt then some j else some low := by
  have none : earlier.find? (fun e => e.1 == keys) = none := List.find?_eq_none.mpr fun e he => by simpa using first e he
  have found : p.keySelect.find? (fun e => e.1 == keys) = some (keys, j) := by
    rw [table, List.find?_append, none, List.find?_cons_of_pos (by simp)]
    rfl
  unfold selectKey
  rw [hlow, found]

/-- Settles O37: no key is selected exactly when none is down; which one is, is the table's choice. -/
theorem keyWaitTakesADownKey : Obligations.KeyWaitTakesADownKey := by
  refine ⟨recognized_ldVxK, fun x s => ⟨fun up => ?wait, fun ⟨d, hd⟩ => ?take⟩⟩
  case wait =>
    exact ⟨_, exec_ldVxK_wait (selectKey_eq_none.mpr up), rfl, rfl, unchanged_jump s s.pc⟩
  case take =>
    have notAllUp : ¬ ∀ k, s.key k = false := fun up => Bool.false_ne_true ((up d).symm.trans hd)
    obtain ⟨k, hk⟩ := Option.ne_none_iff_exists'.mp (mt (selectKey_eq_none (p := s.params)).mp notAllUp)
    obtain ⟨low, hlow⟩ := Option.ne_none_iff_exists'.mp (mt lowestKey_eq_none.mp notAllUp)
    have loaded : (k.setWidth 8).toNat = k.toNat := BitVec.toNat_setWidth_of_le (by decide)
    refine ⟨_, k, exec_ldVxK_take hk, selectKey_down hk, ?_, allKeysUp_get, unchanged_keyTaken s x _ _, ?_, ?_⟩
    · exact (congrArg BitVec.toNat (State.reg_setReg_same s x _)).trans loaded
    · intro noEntry j hj
      rw [selectKey_of_no_entry noEntry] at hk
      exact lowestKey_le hk hj
    · intro earlier j later table first
      have chosen := (selectKey_of_entry table first hlow).symm.trans hk
      constructor
      · intro down
        exact (Option.some.inj ((if_pos down).symm.trans chosen)).symm
      · intro up m hm
        have isLow : low = k := Option.some.inj ((if_neg (Bool.eq_false_iff.mp up)).symm.trans chosen)
        exact isLow ▸ lowestKey_le hlow hm

end Sys2Proof.Machine
end

section
/-! Cycles that leave the machine where it is: a jump to its own address and a key wait with no key down. One cycle of such a
state changes the timers only, so any number of them do. -/

namespace Sys2Proof.Machine

/-- Between cycles, with a program loaded, the word at PC is an instruction that jumps to PC. -/
structure Idles (s : State) (i : Instr) : Prop where
  loaded : s.run ≠ .idle
  noPcSet : s.pcSet = false
  noPulse : s.pulse = none
  fits : s.pc.toNat ≤ 0xFFE
  decoded : decodeWord (s.byteAt s.pc.toNat ++ s.byteAt (s.pc.toNat + 1)) = some i
  stays : (∃ nnn, i = .jp nnn ∧ immAddress nnn = s.pc) ∨ (∃ x, i = .ldVxK x ∧ ∀ k, s.key k = false)

variable {s : State} {i : Instr}

theorem Idles.exec_eq (h : Idles s i) :
    Sys2Proof.Machine.exec i (beginCycle s) = .next ((beginCycle s).jump s.pc) := by
  rcases h.stays with ⟨nnn, rfl, target⟩ | ⟨x, rfl, up⟩
  · rw [← target]
    rfl
  · exact exec_ldVxK_wait (s := beginCycle s) (selectKey_eq_none.mpr up)

/-- The cycle completes, ticks, and changes nothing else. -/
theorem Idles.cycle (h : Idles s i) : ∃ t, step s = .next t ∧ t.dt.toNat = s.dt.toNat - 1 ∧
    t.st.toNat = s.st.toNat - 1 ∧ Unchanged [.dt, .st] s t := by
  have fetched : fetch s = .ok (wordOfBytes (s.byteAt s.pc.toNat) (s.byteAt (s.pc.toNat + 1))) :=
    fetch_eq_ok.mpr ⟨Nat.add_le_add_right h.fits 2, rfl⟩
  refine ⟨_, (step_of_fetch h.loaded fetched).trans (executeWord_of_exec h.decoded h.exec_eq), toNat_tickTimer s.dt,
    toNat_tickTimer s.st, ?_⟩
  constructor <;> simp [h.noPcSet, h.noPulse]

/-- What a change of the timers alone keeps. -/
theorem Idles.of_unchanged {t : State} (h : Idles s i) (frame : Unchanged [.dt, .st] s t) : Idles t i := by
  obtain ⟨samePc, samePcSet⟩ := frame.pc (by simp)
  have sameBytes (a : Nat) : t.byteAt a = s.byteAt a := frame.bytes a (by simp)
  exact {
    loaded := frame.run ▸ h.loaded
    noPcSet := samePcSet.trans h.noPcSet
    noPulse := (frame.pulse (by simp)).trans h.noPulse
    fits := samePc ▸ h.fits
    decoded := by rw [sameBytes, sameBytes, samePc, h.decoded]
    stays := h.stays.imp (fun ⟨nnn, hi, target⟩ => ⟨nnn, hi, target.trans samePc.symm⟩)
      (fun ⟨x, hi, up⟩ => ⟨x, hi, fun k => (frame.keys (by simp) k).trans (up k)⟩) }

/-- Any number of cycles, by induction. -/
theorem Idles.runsTo (n : Nat) (h : Idles s i) : ∃ t, RunsTo n s t ∧ t.dt.toNat = s.dt.toNat - n ∧
    t.st.toNat = s.st.toNat - n ∧ Unchanged [.dt, .st] s t := by
  induction n generalizing s with
  | zero => exact ⟨s, runsTo_zero.mpr rfl, rfl, rfl, unchanged_refl _ s⟩
  | succ n ih =>
    obtain ⟨u, hu, hdt, hst, frame⟩ := h.cycle
    obtain ⟨t, ht, hdt', hst', frame'⟩ := ih (h.of_unchanged frame)
    exact ⟨t, runsTo_succ.mpr ⟨u, hu, ht⟩, by omega, by omega, frame.trans frame'⟩

/-- The word `0x1000 OR PC` is the jump to PC. -/
theorem selfJump_eq {pc : Word} (h : pc.toNat ≤ 0xFFE) : 0x1000#16 ||| pc = encode (.jp (pc.setWidth 12)) := by
  apply BitVec.eq_of_toNat_eq
  have disjoint : 2 ^ 12 * 1 + pc.toNat = 2 ^ 12 * 1 ||| pc.toNat := Nat.two_pow_add_eq_or_of_lt (by omega) 1
  have low : pc.toNat % 2 ^ 12 = pc.toNat := Nat.mod_eq_of_lt (by omega)
  rw [encode, toNat_op_nnn, BitVec.toNat_setWidth, low, BitVec.toNat_or]
  exact disjoint.symm

/-- Settles O18: the word at PC is a jump that stays. -/
theorem selfJumpCountsTimersDown : Obligations.SelfJumpCountsTimersDown := by
  intro n s loaded noPcSet noPulse fits word
  refine Idles.runsTo (i := .jp (s.pc.setWidth 12)) n ⟨loaded, noPcSet, noPulse, fits, ?_, .inl ⟨_, rfl, ?_⟩⟩
  · rw [word, selfJump_eq fits]
    exact decodeWord_encode _ rfl
  · apply BitVec.eq_of_toNat_eq
    rw [toNat_immAddress, BitVec.toNat_setWidth]
    exact Nat.mod_eq_of_lt (by omega)

/-- Settles O38: while no key is down the key wait stays. -/
theorem keyWaitPolls : Obligations.KeyWaitPolls := by
  intro n x s loaded noPcSet noPulse fits decoded up
  exact Idles.runsTo n ⟨loaded, noPcSet, noPulse, fits, decoded, .inr ⟨x, rfl, up⟩⟩

/-! ### Faults repeat -/

/-- A driver whose step faults is left with the state it had. -/
theorem drive_faulting_steps {f : Fault} (h : step s = .fault f) (n : Nat) :
    drive (List.replicate n (.control .step)) s = s := by
  have left : (afterCall s (hostMove (.control .step) s)).1 = s := by
    rw [hostMove, hostControl, h]
    rfl
  induction n with
  | zero => rfl
  | succ n ih => rw [List.replicate_succ, drive, left, ih]

/-- Settles O50: the driver is still at the state whose step faults. -/
theorem faultRepeats : Obligations.FaultRepeats := by
  intro n s f h
  rw [drive_faulting_steps h n, h]
  exact ⟨rfl, rfl⟩

end Sys2Proof.Machine
end

section
/-! The host's moves (60_exceptions.md R177, R178; 70_reset_and_hazards.md R190 to R193): reset and load, the run control, the
accessors, and what every move keeps. -/

namespace Sys2Proof.Machine

/-! ### Reset and load -/

/-- What an engine reset leaves, when its image is the retained one. -/
theorem engineReset_spec {img : List Byte} {s : State} (himg : s.image = some img) :
    (∀ x, (engineReset img s).reg x = 0) ∧ (engineReset img s).iReg = 0 ∧ (engineReset img s).pc = 0x200 ∧
    (engineReset img s).sp = 0 ∧ (∀ k, (engineReset img s).slot k = 0) ∧ (engineReset img s).dt = 0 ∧
    (engineReset img s).st = 0 ∧ (∀ r c, (engineReset img s).display.pixel r c = false) ∧
    (∀ j : Fin 80, (engineReset img s).byteAt (0x050 + j.val) = s.params.font[j]) ∧
    (∀ (j : Nat) (h : j < img.length), (engineReset img s).byteAt (0x200 + j) = img[j]) ∧
    (∀ a, a < 0x050 ∨ (0x0A0 ≤ a ∧ a < 0x200) ∨ 0x200 + img.length ≤ a → (engineReset img s).byteAt a = 0) ∧
    (∀ k, (engineReset img s).key k = s.key k) ∧ (engineReset img s).image = some img ∧
    (engineReset img s).run = .ready ∧ (engineReset img s).params = s.params := by
  refine ⟨engineReset_reg img s, engineReset_iReg img s, engineReset_pc img s, engineReset_sp img s,
    engineReset_slot img s, engineReset_dt img s, engineReset_st img s, ?display, ?font, ?image, ?zeros,
    engineReset_key img s, (engineReset_image img s).trans himg, engineReset_run img s, engineReset_params img s⟩
  case display =>
    rw [engineReset_display]
    exact Display.pixel_clear
  case font =>
    intro j
    rw [engineReset_byteAt, dif_neg (by omega), Memory.unlisted_font]
  case image =>
    intro j hj
    rw [engineReset_byteAt, dif_pos (by omega)]
    simp only [Nat.add_sub_cancel_left]
  case zeros =>
    intro a ha
    rw [engineReset_byteAt, dif_neg (by omega), Memory.unlisted_zero _ (by omega)]

theorem hostControl_reset {s : State} (loaded : s.run ≠ .idle) :
    hostControl .reset s = .next (engineReset (s.image.getD []) s) := by
  rw [hostControl, if_neg loaded]

/-- Settles O55: an image that fits is retained and then reset to. -/
theorem loadResetsAndPlacesTheImage : Obligations.LoadResetsAndPlacesTheImage := by
  intro bytes s
  constructor
  · intro fits
    exact ⟨engineReset bytes { s with image := some bytes }, if_pos fits, engineReset_spec rfl⟩
  · intro long
    exact if_neg (Nat.not_le_of_lt long)

theorem State.writeBytes_with_run (s : State) (r : RunState) (base : Nat) (bs : List Byte) :
    ({ s with run := r } : State).writeBytes base bs = { s.writeBytes base bs with run := r } := by
  induction bs generalizing s base with
  | nil => rfl
  | cons b bs ih => exact ih (s.putByte base b) (base + 1)

/-- An engine reset does not depend on RUN. -/
theorem engineReset_with_run (img : List Byte) (s : State) (r : RunState) :
    engineReset img { s with run := r } = engineReset img s := by
  have container : containerReset { s with run := r } = { containerReset s with run := r } := rfl
  rw [engineReset, container, State.writeBytes_with_run]
  rfl

/-- An engine reset depends on IMAGE, the key flags, the parameters and the count of random bytes only. -/
theorem engineReset_congr (img : List Byte) {s t : State} (image : t.image = s.image) (keys : t.keys = s.keys)
    (params : t.params = s.params) (draws : t.draws = s.draws) : engineReset img t = engineReset img s := by
  have container : containerReset { t with run := .ready } = containerReset { s with run := .ready } := by
    simp only [containerReset, image, keys, params, draws]
  rw [← engineReset_with_run img t .ready, engineReset, container, ← engineReset, engineReset_with_run]

/-- Settles O56: both clauses are about one engine reset with the retained image. -/
theorem resetForgetsTheRun : Obligations.ResetForgetsTheRun := by
  refine ⟨fun s img loaded himg _ => ?_, fun s t loaded loaded' present image keys params draws => ?_⟩
  · refine ⟨engineReset img s, ?_, engineReset_spec himg⟩
    rw [hostControl_reset loaded, himg]
    rfl
  · refine ⟨engineReset (s.image.getD []) s, hostControl_reset loaded, ?_, rfl, rfl, engineReset_image _ s⟩
    rw [hostControl_reset loaded', image, engineReset_congr _ image keys params draws]

theorem reset_byteAt (a : Nat) : State.reset.byteAt a = Memory.unlisted defaultFont a := rfl

/-- Settles O57: memory lists nothing, so it reads as the reset contents. -/
theorem resetState : Obligations.ResetState := by
  refine ⟨fun x => ?_, rfl, rfl, rfl, fun k => ?_, rfl, rfl, Display.pixel_clear, fun j => ?_, rfl, fun a ha => ?_,
    fun k => ?_, rfl, rfl⟩
  · simp [State.reg, State.reset]
  · simp [State.slot, State.reset]
  · rw [reset_byteAt, Memory.unlisted_font]
  · rw [reset_byteAt, Memory.unlisted_zero _ ha]
  · simp [State.key, State.reset]

/-- Settles O54: the reset state lists no memory, holds the empty image and has zeroed slots. -/
theorem resetMeetsInvariants : Obligations.ResetMeetsInvariants := by
  refine ⟨⟨Memory.wf_nil, fun img h => ?_, fun _ h => (nomatch h), rfl⟩, ⟨by decide, fun k => ?_⟩⟩
  · cases h
    exact Nat.zero_le _
  · simp [State.slot, State.reset]

/-! ### The run control -/

/-- Settles O58: each operation by the run states. -/
theorem runControlTable : Obligations.RunControlTable := by
  intro s
  refine ⟨?run, ?pause, rfl, rfl, step_idle, fun idle => ?reset⟩
  case run => cases h : s.run <;> simp [hostControl, moveRun, raiseFault, h]
  case pause =>
    intro op hop
    simp only [List.mem_cons, List.not_mem_nil, or_false] at hop
    rcases hop with rfl | rfl <;> rfl
  case reset => exact ⟨containerReset s, by rw [hostControl, if_pos idle], idle, rfl, rfl⟩

/-! ### The accessors -/

theorem unchanged_setSlot (s : State) {i : Nat} (hi : i < 16) (w : Word) :
    Unchanged [.slot ⟨i, hi⟩] s { s with stack := s.stack.set i w hi } := by
  constructor <;> (try simp) <;> (try intros) <;> (try rfl)
  rename_i k other
  exact Vector.getElem_set_ne hi k.isLt fun e => other (Fin.ext e.symm)

/-- Settles O59: in range each accessor is one write or read of a vector. -/
theorem hostAccessorsAreBoundsChecked : Obligations.HostAccessorsAreBoundsChecked := by
  intro s i v
  constructor
  · intro hi
    have inside : i < 16 := Nat.lt_succ_of_le hi
    have number : (BitVec.ofNat 4 i).toNat = i := by
      rw [BitVec.toNat_ofNat]
      omega
    have index : Fin.ofNat 16 i = ⟨i, inside⟩ := Fin.ext (Nat.mod_eq_of_lt inside)
    refine ⟨_, _, dif_pos inside, ?_, ?_, dif_pos inside, ?_, ?_⟩
    · exact (dif_pos inside).trans (by simp)
    · have frame := unchanged_setReg s (BitVec.ofNat 4 i) (BitVec.ofNat 8 v)
      simpa only [State.setReg, number] using frame
    · exact (dif_pos inside).trans (by simp)
    · rw [index]
      exact unchanged_setSlot s inside _
  · intro hi
    have outside : ¬ i < 16 := Nat.not_lt_of_le hi
    exact ⟨dif_neg outside, dif_neg outside, dif_neg outside, dif_neg outside⟩

/-! ### What every move keeps -/

theorem engineReset_betweenCycles {img : List Byte} {s : State} (fits : img.length ≤ imageMax)
    (present : s.image ≠ none) (imageFits : ∀ i, s.image = some i → i.length ≤ imageMax) :
    (engineReset img s).BetweenCycles where
  memory := by
    rw [State.MemoryCanonical, engineReset_params]
    exact State.canonical_writeBytes (s := containerReset s) (by simp only [loadBase, imageMax, memSize] at *; omega)
      Memory.wf_nil
  imageFits i hi := imageFits i ((engineReset_image img s).symm.trans hi)
  loaded _ := (engineReset_image img s).symm ▸ present
  noPcSet := engineReset_pcSet img s

theorem moveRun_keeps {op : ControlOp} {source target : RunState} {s t : State} (loaded : source ≠ .idle)
    (hs : s.BetweenCycles) (h : moveRun op source target s = .next t) : t.BetweenCycles := by
  unfold moveRun at h
  split at h
  · rename_i atSource
    cases h
    exact ⟨hs.memory, hs.imageFits, fun _ => hs.loaded (atSource ▸ loaded), hs.noPcSet⟩
  · cases h

theorem executeWord_keeps {w : Word} {s t : State} (hs : s.BetweenCycles) (h : executeWord w s = .next t) :
    t.BetweenCycles := by
  have frame := executeWord_unchanged h
  refine ⟨executeWord_keeps_canonical hs.memory h, frame.image ▸ hs.imageFits, ?_, ?_⟩
  · rw [frame.run, frame.image]
    exact hs.loaded
  · obtain ⟨u, -, rfl⟩ := executeWord_next h
    rfl

theorem hostControl_keeps {op : ControlOp} {s t : State} (hs : s.BetweenCycles) (h : hostControl op s = .next t) :
    t.BetweenCycles := by
  cases op with
  | load bytes =>
    by_cases fits : bytes.length ≤ imageMax
    · cases (if_pos fits).symm.trans h
      exact engineReset_betweenCycles fits (by simp) fun i hi => by cases hi; exact fits
    · cases (if_neg fits).symm.trans h
  | run =>
    rw [hostControl] at h
    split at h
    · cases h
    · exact moveRun_keeps (by decide) hs h
  | pause => exact moveRun_keeps (source := .running) (by decide) hs h
  | stop => exact moveRun_keeps (source := .running) (by decide) hs h
  | resume => exact moveRun_keeps (source := .paused) (by decide) hs h
  | reset =>
    by_cases idle : s.run = .idle
    · rw [hostControl, if_pos idle] at h
      cases h
      exact ⟨Memory.wf_nil, hs.imageFits, fun loaded => absurd idle loaded, rfl⟩
    · cases (hostControl_reset idle).symm.trans h
      obtain ⟨img, himg⟩ := Option.ne_none_iff_exists'.mp (hs.loaded idle)
      rw [himg]
      exact engineReset_betweenCycles (hs.imageFits img himg) (hs.loaded idle) hs.imageFits
  | step =>
    obtain ⟨-, w, -, hf, -, -⟩ := step_next h
    exact executeWord_keeps hs (executeWord_of_step hf h)
  | execWord w => exact executeWord_keeps hs h

/-- A checked write that completes did not raise. -/
theorem ofExcept_next {e : Except Fault State} {t : State} (h : ofExcept e = .next t) : e = .ok t := by
  cases e <;> cases h
  rfl

/-- Settles O52, move by move: resets make what they keep, run control and accessors leave it, and a store is in range. -/
theorem hostMovesKeepBetweenCycles : Obligations.HostMovesKeepBetweenCycles := by
  intro m s t hs h
  obtain ⟨memory, imageFits, loaded, noPcSet⟩ := hs
  cases m with
  | control op => exact hostControl_keeps ⟨memory, imageFits, loaded, noPcSet⟩ h
  | setKey k down =>
    cases h
    exact ⟨memory, imageFits, loaded, noPcSet⟩
  | setRegister i v =>
    have ok := ofExcept_next h
    unfold setRegister at ok
    split at ok <;> cases ok
    exact ⟨memory, imageFits, loaded, noPcSet⟩
  | setStack i v =>
    have ok := ofExcept_next h
    unfold setStack at ok
    split at ok <;> cases ok
    exact ⟨memory, imageFits, loaded, noPcSet⟩
  | writeMemory a b =>
    have ok := ofExcept_next h
    by_cases ha : a < memSize
    · cases (memWrite_ok b ha).symm.trans ok
      exact ⟨Memory.wf_write b ha memory, imageFits, loaded, noPcSet⟩
    · cases (memWrite_fault b (Nat.le_of_not_lt ha)).symm.trans ok

/-! ### Placing a word (log 24) -/

/-- `idle` becomes `ready`. -/
def wake (s : State) : State := if s.run = .idle then { s with run := .ready } else s

/-- A PC that no fetch can be made at is moved to the entry point. -/
def toFetchable (s : State) : State :=
  if s.pc.toNat + 2 ≤ memSize then s else { s with pc := BitVec.ofNat 16 loadBase }

theorem placeWord_eq (s : State) (w : Word) : placeWord s w =
    (toFetchable (wake s)).writeBytes (toFetchable (wake s)).pc.toNat [highByte w, lowByte w] := rfl

theorem wake_loaded (s : State) : (wake s).run ≠ .idle := by
  unfold wake
  split
  · exact fun h => nomatch h
  · assumption

theorem toFetchable_run (s : State) : (toFetchable s).run = s.run := by
  unfold toFetchable
  split <;> rfl

theorem toFetchable_fits (s : State) : (toFetchable s).pc.toNat + 2 ≤ memSize := by
  unfold toFetchable
  split
  · assumption
  · exact (by decide : (BitVec.ofNat 16 loadBase).toNat + 2 ≤ memSize)

theorem toFetchable_wake_eq {s : State} (loaded : s.run ≠ .idle) (fits : s.pc.toNat + 2 ≤ memSize) :
    toFetchable (wake s) = s := by
  rw [wake, if_neg loaded, toFetchable, if_pos fits]

/-- The next fetch gives the word placed. -/
theorem fetch_placeWord (s : State) (w : Word) : fetch (placeWord s w) = .ok w := by
  have bytes (k : Nat) (hk : k < 2) := State.byteAt_writeBytes_inside (toFetchable (wake s))
    (toFetchable (wake s)).pc.toNat (bs := [highByte w, lowByte w]) hk
  have first := bytes 0 (by decide)
  have second := bytes 1 (by decide)
  rw [Nat.add_zero] at first
  rw [placeWord_eq, fetch_eq_ok, State.writeBytes_pc, first, second]
  exact ⟨toFetchable_fits _, (wordOfBytes_high_low w).symm⟩

/-- Settles O60: the state is loaded and fetches the word. -/
theorem placedWordRunsNext : Obligations.PlacedWordRunsNext := by
  intro s w hw
  have word : tableWord 16 w = BitVec.ofNat 16 w := congrArg (BitVec.ofNat 16) (Nat.mod_eq_of_lt hw)
  rw [State.withFetchWord, word]
  constructor
  · have loaded : (placeWord s (BitVec.ofNat 16 w)).run ≠ .idle := by
      rw [placeWord_eq, State.writeBytes_run, toFetchable_run]
      exact wake_loaded s
    exact step_of_fetch loaded (fetch_placeWord s _)
  · intro loaded fits
    rw [placeWord_eq, toFetchable_wake_eq loaded (Nat.add_le_add_right fits 2)]
    exact unchanged_writeBytes s s.pc.toNat [_, _]

end Sys2Proof.Machine
end
